-- ==== Sys2Proof/Word.lean ====
section
/-! DEFINITION. The word types of the yac8 CORE: bytes, 16-bit words and register indices (00_scope.md R6, R8). -/

namespace Sys2Proof

/-- A byte: a general register, a timer or a memory cell (10_state.md R20, R28; 20_memory.md R61). -/
abbrev Byte := BitVec 8

/-- A 16-bit word: an instruction word, the program counter or the index register (R6). -/
abbrev Word := BitVec 16

/-- A general register's index, always 0 to 15 (10_state.md R22). Key values have the same range (45_timers_keys.md R266). -/
abbrev Reg := Fin 16

/-- VF, the flag register (10_state.md R21). -/
abbrev vf : Reg := 15

end Sys2Proof
end

