-- ==== Sys2Proof/Config.lean ====
section
/-! DEFINITION. What is fixed for a session (00_scope.md R7; 10_state.md R33, R38), as plain data, and the free values. -/

namespace Sys2Proof

/-- The quirks record `Q`, six independent booleans (10_state.md R33). -/
structure Quirks where
  /-- After 8XY1, 8XY2, 8XY3: `V[15] <- 0`. -/
  vfReset  : Bool
  /-- After the transfer of FX55, FX65: `I <- I + X + 1`. -/
  memInc   : Bool
  /-- Before the shift of 8XY6, 8XYE: `V[X] <- V[Y]`. -/
  shiftSrc : Bool
  /-- BNNN adds `V[NNN[11:8]]` instead of `V[0]`. -/
  jumpVx   : Bool
  /-- DXYN is gated by the vertical-blank machine. -/
  dispWait : Bool
  /-- Off-grid sprite pixels wrap instead of being discarded. -/
  wrap     : Bool
  deriving DecidableEq, Repr

/-- The parameter `I_OVERFLOW`: what an index sum past 0xFFFF does (43_index_memory.md R210). -/
inductive IOverflow where
  | fault
  | wrap
  deriving DecidableEq, Repr

/-- The parameter `DXY0_POLICY`: what DXYN with a row count of 0 does (44_display.md R237). -/
inductive Dxy0Policy where
  | refuse
  | zeroRows
  deriving DecidableEq, Repr

/-- The parameters of 00_scope.md R7 that the engine reads. The host chooses them before a load and no operation
but a load changes them (10_state.md R38). -/
structure Config where
  quirks           : Quirks
  /-- `STACK_DEPTH`, at least 1 (10_state.md R27). -/
  stackDepth       : Nat
  /-- `FONT`, the 80 bytes placed at 0x000 (70_reset_and_hazards.md R342). -/
  font             : Vector Byte 80
  /-- `VBLANK_RELEASE_WFD`: the frame boundary also frees WaitingForDraw (44_display.md R236). -/
  vblankReleaseWfd : Bool
  iOverflow        : IOverflow
  dxy0Policy       : Dxy0Policy
  deriving DecidableEq, Repr

/-- DESIGN CHOICE (log 3), safe. The `n`-th random byte a step takes when the host's schedule names no operation: free, under no
law (42_alu.md R191, D27). -/
opaque Config.freeByte : Nat → Byte

/-- DESIGN CHOICE (log 3), safe. The `n`-th key input a step takes when the host's schedule names no operation: free, one key or
none (45_timers_keys.md R266). -/
opaque Config.freeKey : Nat → Option Reg

end Sys2Proof
end

