-- ==== Sys2Proof/Syntax.lean ====
section
/-! DEFINITION. The 35 instructions of 30_encoding.md R95, one constructor per row of spec/opcode_table.json, in the table's order. -/

namespace Sys2Proof

/-- An instruction, with its operands as the fields of 30_encoding.md R92: `x` and `y` are register indices,
`nn` a byte immediate, `nnn` a 12-bit address immediate, `n` a sprite's row count. -/
inductive Instr where
  /-- Row 1, 00E0: `CLS` (44_display.md R231). -/
  | cls
  /-- Row 2, 00EE: `RET` (41_control_flow.md R162). -/
  | ret
  /-- Row 3, 0NNN: `SYS nnn` (41_control_flow.md R161). -/
  | sys (nnn : BitVec 12)
  /-- Row 4, 1NNN: `JP nnn` (41_control_flow.md R163). -/
  | jp (nnn : BitVec 12)
  /-- Row 5, 2NNN: `CALL nnn` (41_control_flow.md R164). -/
  | call (nnn : BitVec 12)
  /-- Row 6, 3XNN: `SE Vx, nn` (41_control_flow.md R165). -/
  | seImm (x : Reg) (nn : Byte)
  /-- Row 7, 4XNN: `SNE Vx, nn` (41_control_flow.md R166). -/
  | sneImm (x : Reg) (nn : Byte)
  /-- Row 8, 5XY0: `SE Vx, Vy` (41_control_flow.md R167). -/
  | seReg (x y : Reg)
  /-- Row 9, 6XNN: `LD Vx, nn` (42_alu.md R180). -/
  | ldImm (x : Reg) (nn : Byte)
  /-- Row 10, 7XNN: `ADD Vx, nn` (42_alu.md R181). -/
  | addImm (x : Reg) (nn : Byte)
  /-- Row 11, 8XY0: `LD Vx, Vy` (42_alu.md R182). -/
  | ldReg (x y : Reg)
  /-- Row 12, 8XY1: `OR Vx, Vy` (42_alu.md R183). -/
  | orReg (x y : Reg)
  /-- Row 13, 8XY2: `AND Vx, Vy` (42_alu.md R184). -/
  | andReg (x y : Reg)
  /-- Row 14, 8XY3: `XOR Vx, Vy` (42_alu.md R185). -/
  | xorReg (x y : Reg)
  /-- Row 15, 8XY4: `ADD Vx, Vy` (42_alu.md R186). -/
  | addReg (x y : Reg)
  /-- Row 16, 8XY5: `SUB Vx, Vy` (42_alu.md R187). -/
  | sub (x y : Reg)
  /-- Row 17, 8XY6: `SHR Vx, Vy` (42_alu.md R188). -/
  | shr (x y : Reg)
  /-- Row 18, 8XY7: `SUBN Vx, Vy` (42_alu.md R189). -/
  | subn (x y : Reg)
  /-- Row 19, 8XYE: `SHL Vx, Vy` (42_alu.md R190). -/
  | shl (x y : Reg)
  /-- Row 20, 9XY0: `SNE Vx, Vy` (41_control_flow.md R168). -/
  | sneReg (x y : Reg)
  /-- Row 21, ANNN: `LD I, nnn` (43_index_memory.md R211). -/
  | ldI (nnn : BitVec 12)
  /-- Row 22, BNNN: `JP V0, nnn` (41_control_flow.md R169). -/
  | jpV0 (nnn : BitVec 12)
  /-- Row 23, CXNN: `RND Vx, nn` (42_alu.md R191). -/
  | rnd (x : Reg) (nn : Byte)
  /-- Row 24, DXYN: `DRW Vx, Vy, n` (44_display.md R232). -/
  | drw (x y : Reg) (n : BitVec 4)
  /-- Row 25, EX9E: `SKP Vx` (45_timers_keys.md R263). -/
  | skp (x : Reg)
  /-- Row 26, EXA1: `SKNP Vx` (45_timers_keys.md R264). -/
  | sknp (x : Reg)
  /-- Row 27, FX07: `LD Vx, DT` (45_timers_keys.md R260). -/
  | ldVxDt (x : Reg)
  /-- Row 28, FX0A: `LD Vx, K` (45_timers_keys.md R265). -/
  | ldVxK (x : Reg)
  /-- Row 29, FX15: `LD DT, Vx` (45_timers_keys.md R261). -/
  | ldDtVx (x : Reg)
  /-- Row 30, FX18: `LD ST, Vx` (45_timers_keys.md R262). -/
  | ldStVx (x : Reg)
  /-- Row 31, FX1E: `ADD I, Vx` (43_index_memory.md R212). -/
  | addI (x : Reg)
  /-- Row 32, FX29: `LD F, Vx` (43_index_memory.md R213). -/
  | ldF (x : Reg)
  /-- Row 33, FX33: `LD B, Vx` (43_index_memory.md R214). -/
  | ldB (x : Reg)
  /-- Row 34, FX55: `LD [I], Vx` (43_index_memory.md R215). -/
  | storeRegs (x : Reg)
  /-- Row 35, FX65: `LD Vx, [I]` (43_index_memory.md R216). -/
  | loadRegs (x : Reg)
  deriving DecidableEq, Repr

end Sys2Proof
end

