-- ==== Sys2Proof/WellFormed.lean ====
section
/-! DEFINITION. Which instructions and configurations the spec allows, beyond what their types already say. -/

namespace Sys2Proof

/-- Every field value names an instruction (30_encoding.md R92, R93), but two: the words 0x00E0 and 0x00EE are CLS and
RET and never SYS (R94, R97). -/
def Instr.wf : Instr → Bool
  | .sys nnn => nnn ≠ 0x0E0#12 && nnn ≠ 0x0EE#12
  | _ => true

/-- `STACK_DEPTH` is a natural number at least 1 (00_scope.md R7). -/
def Config.wf (c : Config) : Bool := 1 ≤ c.stackDepth

end Sys2Proof
end

