-- ==== Sys2Proof/Decode.lean ====
section
/-! DEFINITION. Decoding an instruction word in the order of 30_encoding.md R94, the encoder of the opcode map R95, and the
bytes of a word (20_memory.md R64). -/

namespace Sys2Proof

/-- Why bytes do not decode: the word is no row of the opcode map (R96), or there are fewer than two bytes. -/
inductive DecodeError where
  | illegalInstruction (w : Word)
  | truncated
  deriving DecidableEq, Repr

/-- The register a nibble names (R93). -/
def regOf (b : BitVec 4) : Reg := b.toFin

/-- The nibble that names a register. -/
def nibbleOf (r : Reg) : BitVec 4 := BitVec.ofFin r

/-- `op = w[15:12]` (00_scope.md R11). -/
def opField (w : Word) : BitVec 4 := w.extractLsb' 12 4

/-- `X = w[11:8]`, a register (R92). -/
def xField (w : Word) : Reg := regOf (w.extractLsb' 8 4)

/-- `Y = w[7:4]`, a register (R92). -/
def yField (w : Word) : Reg := regOf (w.extractLsb' 4 4)

/-- `N = w[3:0]` (R92). -/
def nField (w : Word) : BitVec 4 := w.extractLsb' 0 4

/-- `NN = w[7:0]` (R92). -/
def nnField (w : Word) : Byte := w.extractLsb' 0 8

/-- `NNN = w[11:0]` (R92). -/
def nnnField (w : Word) : BitVec 12 := w.extractLsb' 0 12

/-- First nibble 8: the instruction the fourth nibble selects (R94 step 4, rows 11 to 19). -/
def decodeAlu (w : Word) : Except DecodeError Instr :=
  match (nField w).toNat with
  | 0x0 => .ok (.ldReg (xField w) (yField w))
  | 0x1 => .ok (.orReg (xField w) (yField w))
  | 0x2 => .ok (.andReg (xField w) (yField w))
  | 0x3 => .ok (.xorReg (xField w) (yField w))
  | 0x4 => .ok (.addReg (xField w) (yField w))
  | 0x5 => .ok (.sub (xField w) (yField w))
  | 0x6 => .ok (.shr (xField w) (yField w))
  | 0x7 => .ok (.subn (xField w) (yField w))
  | 0xE => .ok (.shl (xField w) (yField w))
  | _ => .error (.illegalInstruction w)

/-- First nibble E: the instruction the low byte selects (R94 step 5, rows 25 and 26). -/
def decodeKey (w : Word) : Except DecodeError Instr :=
  if nnField w = 0x9E#8 then .ok (.skp (xField w))
  else if nnField w = 0xA1#8 then .ok (.sknp (xField w))
  else .error (.illegalInstruction w)

/-- First nibble F: the instruction the low byte selects (R94 step 5, rows 27 to 35). -/
def decodeMisc (w : Word) : Except DecodeError Instr :=
  if nnField w = 0x07#8 then .ok (.ldVxDt (xField w))
  else if nnField w = 0x0A#8 then .ok (.ldVxK (xField w))
  else if nnField w = 0x15#8 then .ok (.ldDtVx (xField w))
  else if nnField w = 0x18#8 then .ok (.ldStVx (xField w))
  else if nnField w = 0x1E#8 then .ok (.addI (xField w))
  else if nnField w = 0x29#8 then .ok (.ldF (xField w))
  else if nnField w = 0x33#8 then .ok (.ldB (xField w))
  else if nnField w = 0x55#8 then .ok (.storeRegs (xField w))
  else if nnField w = 0x65#8 then .ok (.loadRegs (xField w))
  else .error (.illegalInstruction w)

/-- The instruction the first nibble selects, the two fixed words apart (R94 steps 2 to 6). Every fixed nibble is matched exactly
(R96, D9). -/
def decodeByOp (w : Word) : Except DecodeError Instr :=
  match (opField w).toNat with
  | 0x0 => .ok (.sys (nnnField w))
  | 0x1 => .ok (.jp (nnnField w))
  | 0x2 => .ok (.call (nnnField w))
  | 0x3 => .ok (.seImm (xField w) (nnField w))
  | 0x4 => .ok (.sneImm (xField w) (nnField w))
  | 0x5 => if nField w = 0#4 then .ok (.seReg (xField w) (yField w)) else .error (.illegalInstruction w)
  | 0x6 => .ok (.ldImm (xField w) (nnField w))
  | 0x7 => .ok (.addImm (xField w) (nnField w))
  | 0x8 => decodeAlu w
  | 0x9 => if nField w = 0#4 then .ok (.sneReg (xField w) (yField w)) else .error (.illegalInstruction w)
  | 0xA => .ok (.ldI (nnnField w))
  | 0xB => .ok (.jpV0 (nnnField w))
  | 0xC => .ok (.rnd (xField w) (nnField w))
  | 0xD => .ok (.drw (xField w) (yField w) (nField w))
  | 0xE => decodeKey w
  | _ => decodeMisc w

/-- The instruction of a word, in R94's order: the two fixed words, then the native-call family and the other first
nibbles. Decoding is total (R99). -/
def decodeWord (w : Word) : Except DecodeError Instr :=
  if w = 0x00E0#16 then .ok .cls
  else if w = 0x00EE#16 then .ok .ret
  else decodeByOp w

/-- The word of two bytes in memory order, big-endian (20_memory.md R64). -/
def wordOfBytes (hi lo : Byte) : Word := hi ++ lo

/-- The first byte of a word in memory, bits 15 to 8 (20_memory.md R64). -/
def highByte (w : Word) : Byte := w.extractLsb' 8 8

/-- The second byte of a word in memory, bits 7 to 0 (20_memory.md R64). -/
def lowByte (w : Word) : Byte := w.extractLsb' 0 8

/-- Decode the instruction at the head of a list of bytes, in memory order, and give the bytes after it (R90). -/
def decode : List Byte → Except DecodeError (Instr × List Byte)
  | hi :: lo :: rest =>
    match decodeWord (wordOfBytes hi lo) with
    | .ok i => .ok (i, rest)
    | .error e => .error e
  | _ => .error .truncated

/-- A word of format `NNN` (R91). -/
def formNnn (op : BitVec 4) (nnn : BitVec 12) : Word := op ++ nnn

/-- A word of format `XNN` (R91). -/
def formXnn (op : BitVec 4) (x : Reg) (nn : Byte) : Word := op ++ (nibbleOf x ++ nn)

/-- A word of format `XY` or `XYN` (R91): the last nibble is a fixed function or the row count. -/
def formXyn (op : BitVec 4) (x y : Reg) (n : BitVec 4) : Word := op ++ (nibbleOf x ++ (nibbleOf y ++ n))

/-- The word of an instruction, by the opcode map R95. -/
def encode : Instr → Word
  | .cls => 0x00E0#16
  | .ret => 0x00EE#16
  | .sys nnn => formNnn 0x0#4 nnn
  | .jp nnn => formNnn 0x1#4 nnn
  | .call nnn => formNnn 0x2#4 nnn
  | .seImm x nn => formXnn 0x3#4 x nn
  | .sneImm x nn => formXnn 0x4#4 x nn
  | .seReg x y => formXyn 0x5#4 x y 0x0#4
  | .ldImm x nn => formXnn 0x6#4 x nn
  | .addImm x nn => formXnn 0x7#4 x nn
  | .ldReg x y => formXyn 0x8#4 x y 0x0#4
  | .orReg x y => formXyn 0x8#4 x y 0x1#4
  | .andReg x y => formXyn 0x8#4 x y 0x2#4
  | .xorReg x y => formXyn 0x8#4 x y 0x3#4
  | .addReg x y => formXyn 0x8#4 x y 0x4#4
  | .sub x y => formXyn 0x8#4 x y 0x5#4
  | .shr x y => formXyn 0x8#4 x y 0x6#4
  | .subn x y => formXyn 0x8#4 x y 0x7#4
  | .shl x y => formXyn 0x8#4 x y 0xE#4
  | .sneReg x y => formXyn 0x9#4 x y 0x0#4
  | .ldI nnn => formNnn 0xA#4 nnn
  | .jpV0 nnn => formNnn 0xB#4 nnn
  | .rnd x nn => formXnn 0xC#4 x nn
  | .drw x y n => formXyn 0xD#4 x y n
  | .skp x => formXnn 0xE#4 x 0x9E#8
  | .sknp x => formXnn 0xE#4 x 0xA1#8
  | .ldVxDt x => formXnn 0xF#4 x 0x07#8
  | .ldVxK x => formXnn 0xF#4 x 0x0A#8
  | .ldDtVx x => formXnn 0xF#4 x 0x15#8
  | .ldStVx x => formXnn 0xF#4 x 0x18#8
  | .addI x => formXnn 0xF#4 x 0x1E#8
  | .ldF x => formXnn 0xF#4 x 0x29#8
  | .ldB x => formXnn 0xF#4 x 0x33#8
  | .storeRegs x => formXnn 0xF#4 x 0x55#8
  | .loadRegs x => formXnn 0xF#4 x 0x65#8

/-- The fixed bits of an instruction's row in the opcode map, `match` (R95, spec/opcode_table.json). -/
def rowMatch : Instr → Word
  | .cls => 0x00E0#16
  | .ret => 0x00EE#16
  | .sys _ => 0x0000#16
  | .jp _ => 0x1000#16
  | .call _ => 0x2000#16
  | .seImm _ _ => 0x3000#16
  | .sneImm _ _ => 0x4000#16
  | .seReg _ _ => 0x5000#16
  | .ldImm _ _ => 0x6000#16
  | .addImm _ _ => 0x7000#16
  | .ldReg _ _ => 0x8000#16
  | .orReg _ _ => 0x8001#16
  | .andReg _ _ => 0x8002#16
  | .xorReg _ _ => 0x8003#16
  | .addReg _ _ => 0x8004#16
  | .sub _ _ => 0x8005#16
  | .shr _ _ => 0x8006#16
  | .subn _ _ => 0x8007#16
  | .shl _ _ => 0x800E#16
  | .sneReg _ _ => 0x9000#16
  | .ldI _ => 0xA000#16
  | .jpV0 _ => 0xB000#16
  | .rnd _ _ => 0xC000#16
  | .drw _ _ _ => 0xD000#16
  | .skp _ => 0xE09E#16
  | .sknp _ => 0xE0A1#16
  | .ldVxDt _ => 0xF007#16
  | .ldVxK _ => 0xF00A#16
  | .ldDtVx _ => 0xF015#16
  | .ldStVx _ => 0xF018#16
  | .addI _ => 0xF01E#16
  | .ldF _ => 0xF029#16
  | .ldB _ => 0xF033#16
  | .storeRegs _ => 0xF055#16
  | .loadRegs _ => 0xF065#16

/-- The places of an instruction's fixed bits in the opcode map, `mask` (R95, spec/opcode_table.json). -/
def rowMask : Instr → Word
  | .cls => 0xFFFF#16
  | .ret => 0xFFFF#16
  | .sys _ => 0xF000#16
  | .jp _ => 0xF000#16
  | .call _ => 0xF000#16
  | .seImm _ _ => 0xF000#16
  | .sneImm _ _ => 0xF000#16
  | .seReg _ _ => 0xF00F#16
  | .ldImm _ _ => 0xF000#16
  | .addImm _ _ => 0xF000#16
  | .ldReg _ _ => 0xF00F#16
  | .orReg _ _ => 0xF00F#16
  | .andReg _ _ => 0xF00F#16
  | .xorReg _ _ => 0xF00F#16
  | .addReg _ _ => 0xF00F#16
  | .sub _ _ => 0xF00F#16
  | .shr _ _ => 0xF00F#16
  | .subn _ _ => 0xF00F#16
  | .shl _ _ => 0xF00F#16
  | .sneReg _ _ => 0xF00F#16
  | .ldI _ => 0xF000#16
  | .jpV0 _ => 0xF000#16
  | .rnd _ _ => 0xF000#16
  | .drw _ _ _ => 0xF000#16
  | .skp _ => 0xF0FF#16
  | .sknp _ => 0xF0FF#16
  | .ldVxDt _ => 0xF0FF#16
  | .ldVxK _ => 0xF0FF#16
  | .ldDtVx _ => 0xF0FF#16
  | .ldStVx _ => 0xF0FF#16
  | .addI _ => 0xF0FF#16
  | .ldF _ => 0xF0FF#16
  | .ldB _ => 0xF0FF#16
  | .storeRegs _ => 0xF0FF#16
  | .loadRegs _ => 0xF0FF#16

/-- The bytes of an instruction in memory order. -/
def encodeBytes (i : Instr) : List Byte := [highByte (encode i), lowByte (encode i)]

/-- The word whose bits spec/opcode_table.json numbers `w`, the bits at `nbits` and above zero. -/
def tableWord (nbits w : Nat) : Word := BitVec.ofNat 16 (w % 2 ^ nbits)

/-- What the decoder reads from an instruction with the bits `w`, numbered as spec/opcode_table.json numbers them. -/
def decodeTableWord (nbits w : Nat) : Option Instr :=
  match decode [highByte (tableWord nbits w), lowByte (tableWord nbits w)] with
  | .ok (i, _) => some i
  | .error _ => none

end Sys2Proof
end

