-- ==== Sys2Proof/Machine/Presets.lean ====
section
/-! DEFINITION. The named constants of the spec: the three presets of 10_state.md R34, the standard font of
70_reset_and_hazards.md R342, and the default parameters of 00_scope.md R7. PRESUMED by the spec itself (G3, G4, G8; log 7), unsafe. -/

namespace Sys2Proof.Machine

/-- `CHIP8`, the original COSMAC VIP dialect (10_state.md R34). -/
def quirksChip8 : Quirks :=
  { vfReset := true, memInc := true, shiftSrc := true, jumpVx := false, dispWait := true, wrap := false }

/-- `SCHIP`, the SUPER-CHIP 1.1 dialect (10_state.md R34). -/
def quirksSchip : Quirks :=
  { vfReset := false, memInc := false, shiftSrc := false, jumpVx := true, dispWait := false, wrap := false }

/-- `XOCHIP`, the XO-CHIP dialect (10_state.md R34). -/
def quirksXochip : Quirks :=
  { vfReset := false, memInc := true, shiftSrc := true, jumpVx := false, dispWait := false, wrap := true }

/-- The standard font, glyphs 0 to F in order, five bytes each (70_reset_and_hazards.md R342). -/
def standardFontBytes : List Byte :=
  [0xF0, 0x90, 0x90, 0x90, 0xF0] ++ [0x20, 0x60, 0x20, 0x20, 0x70] ++ [0xF0, 0x10, 0xF0, 0x80, 0xF0] ++
  [0xF0, 0x10, 0xF0, 0x10, 0xF0] ++ [0x90, 0x90, 0xF0, 0x10, 0x10] ++ [0xF0, 0x80, 0xF0, 0x10, 0xF0] ++
  [0xF0, 0x80, 0xF0, 0x90, 0xF0] ++ [0xF0, 0x10, 0x20, 0x40, 0x40] ++ [0xF0, 0x90, 0xF0, 0x90, 0xF0] ++
  [0xF0, 0x90, 0xF0, 0x10, 0xF0] ++ [0xF0, 0x90, 0xF0, 0x90, 0x90] ++ [0xE0, 0x90, 0xE0, 0x90, 0xE0] ++
  [0xF0, 0x80, 0x80, 0x80, 0xF0] ++ [0xE0, 0x90, 0x90, 0x90, 0xE0] ++ [0xF0, 0x80, 0xF0, 0x80, 0xF0] ++
  [0xF0, 0x80, 0xF0, 0x80, 0x80]

/-- The default of the parameter `FONT` (00_scope.md R7). -/
def standardFont : Vector Byte 80 := ⟨standardFontBytes.toArray, rfl⟩

/-- The defaults of 00_scope.md R7. DESIGN CHOICE (log 7), unsafe: of the three presets R7 allows as the default of `Q`, CHIP8. -/
def defaultConfig : Config :=
  { quirks := quirksChip8, stackDepth := 16, font := standardFont, vblankReleaseWfd := false,
    iOverflow := .fault, dxy0Policy := .refuse }

end Sys2Proof.Machine
end

