-- ==== Sys2Proof/Machine/State.lean ====
section
/-! DEFINITION. The state of the engine (10_state.md), as plain data, with the session's configuration and the host's side of the
interface; the reasons a step can stop; the state after reset (10_state.md R39). -/

namespace Sys2Proof.Machine

/-- The vertical-blank state (10_state.md R32). -/
inductive VBlank where
  | free
  | waitingForDraw
  | waitingForInterrupt
  deriving DecidableEq, Repr

/-- The kinds of fatal error (60_exceptions.md R300). The last, a refusal in the spec's words, is recorded like the others. -/
inductive HaltKind where
  | illegalInstruction
  | nativeCallUnimplemented
  | stackUnderflow
  | stackOverflow
  | addressOutOfRange
  | indexOverflow
  | unmodelled
  deriving DecidableEq, Repr

/-- The record of the fatal error that ended the session (10_state.md R35, 60_exceptions.md R301). Its code is a function of
its kind (`HaltKind.code`). -/
structure HaltRecord where
  kind      : HaltKind
  /-- The address the word was fetched from; for a fetch fault, `pc`. -/
  instrAddr : Word
  /-- The instruction word, when one was fetched. -/
  word      : Option Word
  /-- The address out of range, for `AddressOutOfRange`: an unbounded natural (20_memory.md R63). -/
  memAddr   : Option Nat
  deriving DecidableEq, Repr

/-- What a `raise` inside an instruction says (00_scope.md R10): the kind, and the address out of range for `AddressOutOfRange`. -/
structure Raise where
  kind    : HaltKind
  memAddr : Option Nat
  deriving DecidableEq, Repr

/-- The pixels: `grid[x][y]`, column `x` of 64, row `y` of 32, true when set (10_state.md R29). -/
abbrev Grid := Vector (Vector Bool 32) 64

/-- The host's operations, the closed set of 40_engine_cycle.md R130. -/
inductive HostOp where
  /-- `load(image)`, with the configuration the host has chosen before it (70_reset_and_hazards.md R340). -/
  | load (cfg : Config) (image : List Byte)
  /-- `step(key, rnd)` (40_engine_cycle.md R131). -/
  | step (key : Option Reg) (rnd : Byte)
  /-- `deliver_key(k)` (40_engine_cycle.md R135). -/
  | deliverKey (k : Reg)
  /-- `frame_boundary()` (40_engine_cycle.md R136). -/
  | frameBoundary
  /-- `ack_display()` (40_engine_cycle.md R137). -/
  | ackDisplay
  /-- A reading of the observations (40_engine_cycle.md R138). -/
  | observe
  deriving DecidableEq, Repr

/-- The machine. The fields down to `halt` are the spec's (10_state.md); `cfg` is the session's configuration; the last five are the
MODEL's own and hold the host's side of the interface (log 2, 3, 4, 8). -/
structure State where
  /-- Memory: the cells that differ from the reset contents, addresses strictly rising (20_memory.md R60; log 5). -/
  mem      : List Host.Cell
  /-- `V[0]` to `V[15]` (R20). -/
  v        : Vector Byte 16
  /-- `I`, the index register (R23). -/
  idx      : Word
  /-- The program counter (R24). -/
  pc       : Word
  /-- The call stack, its head the top (R27). -/
  stack    : List Word
  /-- `DT`, the delay timer (R28). -/
  dt       : Byte
  /-- `ST`, the sound timer (R28). -/
  st       : Byte
  /-- The pixel grid (R29). -/
  grid     : Grid
  /-- The changed flag (R31). -/
  changed  : Bool
  /-- The blocking flag (R30). -/
  blocked  : Bool
  /-- `wait_reg`, the register awaiting a key, meaningful only while blocked (R30). -/
  waitReg  : Reg
  /-- The vertical-blank state (R32). -/
  vblank   : VBlank
  /-- The halt record, none while the engine runs (R35). -/
  halt     : Option HaltRecord
  /-- The session's configuration (R38; 00_scope.md R7). -/
  cfg      : Config
  /-- MODEL's own (log 2): the operations the host has issued and the engine has not performed, oldest first. -/
  schedule : List HostOp
  /-- MODEL's own (log 4): the `key` argument of the step in progress (40_engine_cycle.md R141). -/
  key      : Option Reg
  /-- MODEL's own (log 4): the `rnd` argument of the step in progress (42_alu.md R191). -/
  rnd      : Byte
  /-- MODEL's own (log 3): how many steps have taken free inputs. -/
  draws    : Nat
  /-- MODEL's own (log 8): the grid the last `ack_display` returned (40_engine_cycle.md R137). -/
  snapshot : Option Grid
  deriving DecidableEq, Repr

/-- Why a step of the model stops with a fault: never. Every fatal error of the spec is a NEXT state with the halt record written
(60_exceptions.md R301; log 9), so this type has no constructor, and nobody raises one: safe. -/
inductive Fault where
  deriving DecidableEq, Repr

/-- Why a step of the model is refused. -/
inductive Refusal where
  /-- The instruction has no meaning yet: answered by an arm of `exec` alone, safe. Every arm of this model has its meaning, so
  nobody raises it. -/
  | notModelled (mnemonic : String)
  deriving DecidableEq, Repr

/-- The grid with every pixel clear. -/
def clearGrid : Grid := Vector.replicate 64 (Vector.replicate 32 false)

/-- The machine after the load of an empty image with the default configuration (10_state.md R39). The host has issued nothing;
that, the configuration's preset and the model's own fields are DESIGN CHOICE (log 2, 3, 4, 7, 8), unsafe. -/
def State.reset : State where
  mem := []
  v := Vector.replicate 16 0#8
  idx := 0#16
  pc := 0x200#16
  stack := []
  dt := 0#8
  st := 0#8
  grid := clearGrid
  changed := false
  blocked := false
  waitReg := 0
  vblank := .free
  halt := none
  cfg := defaultConfig
  schedule := []
  key := none
  rnd := 0#8
  draws := 0
  snapshot := none

end Sys2Proof.Machine
end

