-- ==== Sys2Proof/Machine/Ops.lean ====
section
/-! DEFINITION. The named operations over memory, registers, the call stack, the index register and the grid, and the one entry
into a fatal error (00_scope.md R9, R10; 60_exceptions.md R301). -/

namespace Sys2Proof.Machine

/-! ### Memory as a list of cells -/

/-- The number of memory bytes (00_scope.md R6). -/
def memSize : Nat := 4096

/-- What an address holds before anything is written to it, and so what an unlisted address reads as: the font at 0x000 to
0x04F, zero elsewhere (10_state.md R39, 20_memory.md R68; log 5). -/
def resetByte (c : Config) (a : Nat) : Byte := if h : a < 80 then c.font[a] else 0#8

/-- The byte at `a`: the listed one, else `d a`. -/
def Memory.read (d : Nat → Byte) : List Host.Cell → Nat → Byte
  | [], a => d a
  | (k, b) :: m, a => if a = k then b else Memory.read d m a

/-- Put the cell `(a, b)` before the first cell of a higher address. -/
def Memory.insert (a : Nat) (b : Byte) : List Host.Cell → List Host.Cell
  | [] => [(a, b)]
  | (k, w) :: m => if a < k then (a, b) :: (k, w) :: m else (k, w) :: Memory.insert a b m

/-- Take every cell of the address `a` out. -/
def Memory.erase (a : Nat) (m : List Host.Cell) : List Host.Cell := m.filter (fun c => c.1 ≠ a)

/-- Write `b` at `a`, keeping the canonical form: a byte equal to `d a` is not listed. -/
def Memory.write (d : Nat → Byte) (m : List Host.Cell) (a : Nat) (b : Byte) : List Host.Cell :=
  if b = d a then Memory.erase a m else Memory.insert a b (Memory.erase a m)

/-- The canonical form: addresses strictly rising and below 4096, no byte equal to what an unlisted address reads as. -/
def Memory.wf (d : Nat → Byte) : List Host.Cell → Bool
  | [] => true
  | (k, b) :: m => k < memSize && b ≠ d k && m.all (fun c => k < c.1) && Memory.wf d m

/-! ### Memory of the state -/

/-- The byte at `a`, with no range check. -/
def State.readByte (s : State) (a : Nat) : Byte := Memory.read (resetByte s.cfg) s.mem a

/-- Write a byte at `a`, with no range check. -/
def State.writeByte (s : State) (a : Nat) (b : Byte) : State :=
  { s with mem := Memory.write (resetByte s.cfg) s.mem a b }

/-- The raise of an access at `a` outside memory (20_memory.md R63). -/
def outOfRange (a : Nat) : Raise := { kind := .addressOutOfRange, memAddr := some a }

/-- `MemRead(a, 1)` (00_scope.md R9, 20_memory.md R63). -/
def State.memRead (s : State) (a : Nat) : Except Raise Byte :=
  if a < memSize then .ok (s.readByte a) else .error (outOfRange a)

/-- `MemWrite(a, 1, b)` (00_scope.md R9, 20_memory.md R63). -/
def State.memWrite (s : State) (a : Nat) (b : Byte) : Except Raise State :=
  if a < memSize then .ok (s.writeByte a b) else .error (outOfRange a)

/-- `n` byte reads at ascending addresses from `a` (20_memory.md R62, R65): the first address out of range raises. -/
def State.readBytes (s : State) (a : Nat) : Nat → Except Raise (List Byte)
  | 0 => .ok []
  | n + 1 =>
    match s.memRead a with
    | .error e => .error e
    | .ok b =>
      match s.readBytes (a + 1) n with
      | .error e => .error e
      | .ok bs => .ok (b :: bs)

/-- Byte writes at ascending addresses from `a` (20_memory.md R62, R65): the first address out of range raises. -/
def State.writeBytes (s : State) (a : Nat) : List Byte → Except Raise State
  | [] => .ok s
  | b :: bs =>
    match s.memWrite a b with
    | .error e => .error e
    | .ok t => t.writeBytes (a + 1) bs

/-- Write bytes at ascending addresses from `a`, with no range check (70_reset_and_hazards.md R340). -/
def State.placeBytes (s : State) (a : Nat) : List Byte → State
  | [] => s
  | b :: bs => (s.writeByte a b).placeBytes (a + 1) bs

/-! ### Registers -/

/-- Read `V[r]` (00_scope.md R9). -/
def State.getV (s : State) (r : Reg) : Byte := s.v[r.val]

/-- Write `V[r]` (00_scope.md R9). -/
def State.setV (s : State) (r : Reg) (b : Byte) : State := { s with v := s.v.set r.val b }

/-- Write the flag register (10_state.md R21: "alias for `set(0xF, byte)`"). -/
def State.setFlag (s : State) (b : Byte) : State := s.setV vf b

/-- The primary result, then the flag: the flag is written last and wins when `r` is VF (10_state.md R21). -/
def State.setWithFlag (s : State) (r : Reg) (b flag : Byte) : State := (s.setV r b).setFlag flag

/-- `V[n] <- b` for the bytes in order, from register `n` on (43_index_memory.md R216). -/
def loadRegsFrom (n : Nat) : List Byte → Vector Byte 16 → Vector Byte 16
  | [], v => v
  | b :: bs, v => loadRegsFrom (n + 1) bs (v.setIfInBounds n b)

/-! ### Program counter and call stack -/

/-- `pc <- a`. -/
def State.setPc (s : State) (a : Word) : State := { s with pc := a }

/-- The primitive `Skip`, taken when `c` (41_control_flow.md R160). -/
def State.skipIf (s : State) (c : Bool) : State := if c then s.setPc (s.pc + 2#16) else s

/-- `Push(a)` (10_state.md R27). -/
def State.push (s : State) (a : Word) : Except Raise State :=
  if s.stack.length = s.cfg.stackDepth then .error { kind := .stackOverflow, memAddr := none }
  else .ok { s with stack := a :: s.stack }

/-- `Pop()`: the top and the state without it (10_state.md R27). -/
def State.pop (s : State) : Except Raise (Word × State) :=
  match s.stack with
  | [] => .error { kind := .stackUnderflow, memAddr := none }
  | a :: rest => .ok (a, { s with stack := rest })

/-! ### Index register -/

/-- `I <- a`. -/
def State.setIdx (s : State) (a : Word) : State := { s with idx := a }

/-- `IndexAdd(n)` (43_index_memory.md R210). -/
def State.indexAdd (s : State) (n : Nat) : Except Raise State :=
  if s.idx.toNat + n ≤ 0xFFFF then .ok (s.setIdx (BitVec.ofNat 16 (s.idx.toNat + n)))
  else match s.cfg.iOverflow with
    | .fault => .error { kind := .indexOverflow, memAddr := none }
    | .wrap => .ok (s.setIdx (BitVec.ofNat 16 (s.idx.toNat + n)))

/-! ### Grid -/

/-- The pixel `grid[x][y]`. -/
def Grid.pixel (g : Grid) (x : Fin 64) (y : Fin 32) : Bool := g[x.val][y.val]

/-- `grid[x][y] <- not grid[x][y]`. -/
def Grid.toggle (g : Grid) (x : Fin 64) (y : Fin 32) : Grid :=
  g.set x.val (g[x.val].set y.val (!g[x.val][y.val]))

/-! ### Fatal errors -/

/-- The spec's number of a kind of fatal error (60_exceptions.md R300). -/
def HaltKind.code : HaltKind → Nat
  | .illegalInstruction => 1
  | .nativeCallUnimplemented => 2
  | .stackUnderflow => 3
  | .stackOverflow => 4
  | .addressOutOfRange => 5
  | .indexOverflow => 6
  | .unmodelled => 7

/-- The address of the instruction being executed: `pc` has been advanced by 2 (41_control_flow.md, head; 40_engine_cycle.md R132). -/
def State.instrAddr (s : State) : Word := s.pc - 2#16

/-- Fault entry of an instruction with the word `w` (60_exceptions.md R301): the halt record is written and the session ends. -/
def State.raise (s : State) (w : Word) (e : Raise) : State :=
  { s with halt := some { kind := e.kind, instrAddr := s.instrAddr, word := some w, memAddr := e.memAddr } }

/-- Fault entry of a fetch at `pc` whose byte at `a` is out of range (40_engine_cycle.md R132, 60_exceptions.md R301): no word. -/
def State.raiseFetch (s : State) (e : Raise) : State :=
  { s with halt := some { kind := e.kind, instrAddr := s.pc, word := none, memAddr := e.memAddr } }

/-- The end of an instruction with the word `w` begun in `s`: its result, or the entry into the fatal error it raised. DESIGN CHOICE
(log 9), unsafe only for a claim that reads a halted state beyond its record: the writes made before the raise are discarded, as
00_scope.md R10 lets a model do. -/
def State.conclude (s : State) (w : Word) : Except Raise State → Host.Outcome State Fault Refusal
  | .ok t => .next t
  | .error e => .next (s.raise w e)

end Sys2Proof.Machine
end

