-- ==== Sys2Proof/Machine/Operands.lean ====
section
/-! DEFINITION. The operand forms: address immediates, the jump register, the shift source, the font glyph, decimal digits, register
runs, key comparison, and where a sprite's pixel lands. -/

namespace Sys2Proof.Machine

/-- `zext_16(NNN)` (30_encoding.md R92). -/
def addrImm (nnn : BitVec 12) : Word := nnn.setWidth 16

/-- The register BNNN adds: the one the address's leading nibble names when `jump_vx`, else V0 (41_control_flow.md R169). -/
def jumpReg (q : Quirks) (nnn : BitVec 12) : Reg := if q.jumpVx then regOf (nnn.extractLsb' 8 4) else 0

/-- BNNN's target, with no truncation to 12 bits (41_control_flow.md R169). -/
def State.jumpTarget (s : State) (nnn : BitVec 12) : Word :=
  addrImm nnn + (s.getV (jumpReg s.cfg.quirks nnn)).setWidth 16

/-- The value 8XY6 and 8XYE shift: `V[Y]` when `shift_src` copies it first, else `V[X]` (42_alu.md R188, R190; D33). -/
def State.shiftOperand (s : State) (x y : Reg) : Byte := if s.cfg.quirks.shiftSrc then s.getV y else s.getV x

/-- The address of the glyph of a byte's low nibble, 5 bytes a glyph (43_index_memory.md R213, D16). -/
def glyphAddr (b : Byte) : Word := 5#16 * (b &&& 0x0F#8).setWidth 16

/-- Hundreds, tens and ones, most significant first (43_index_memory.md R214). -/
def bcdDigits (b : Byte) : List Byte := [b / 100#8, b / 10#8 % 10#8, b % 10#8]

/-- How many registers FX55 and FX65 transfer: V0 to VX (43_index_memory.md R215). -/
def runLength (x : Reg) : Nat := x.val + 1

/-- The values of V0 to VX, in order (43_index_memory.md R215). -/
def State.regRun (s : State) (x : Reg) : List Byte := s.v.toList.take (runLength x)

/-- The increment of `I` after FX55 and FX65 when `mem_inc` (43_index_memory.md R215, R216). -/
def State.memIncrement (s : State) (x : Reg) : Except Raise State :=
  if s.cfg.quirks.memInc then s.indexAdd (runLength x) else .ok s

/-- The step's key input is the key in `V[x]`, compared in full 8 bits (45_timers_keys.md R263, D17). -/
def State.keyPressed (s : State) (x : Reg) : Bool :=
  match s.key with
  | none => false
  | some k => k.val = (s.getV x).toNat

/-- A draw's starting column, `V[x] & 63` (44_display.md R232). -/
def State.startColumn (s : State) (x : Reg) : Nat := (s.getV x &&& 63#8).toNat

/-- A draw's starting row, `V[y] & 31` (44_display.md R232). -/
def State.startRow (s : State) (y : Reg) : Nat := (s.getV y &&& 31#8).toNat

/-- `Place(px, py)` (44_display.md R235): wrapped, or discarded when off the grid. -/
def place (wrap : Bool) (px py : Nat) : Option (Fin 64 × Fin 32) :=
  if wrap then some (⟨px % 64, Nat.mod_lt _ (by decide)⟩, ⟨py % 32, Nat.mod_lt _ (by decide)⟩)
  else if h : px < 64 ∧ py < 32 then some (⟨px, h.1⟩, ⟨py, h.2⟩)
  else none

/-- The sprite bit of column `c` in a row's byte, the most significant leftmost (44_display.md R230, R232). -/
def spriteBit (row : Byte) (c : Nat) : Bool := row.getLsbD (7 - c)

end Sys2Proof.Machine
end

