-- ==== Sys2Proof/Machine/Flags.lean ====
section
/-! DEFINITION. Every value the instructions write into VF as a flag (10_state.md R21). -/

namespace Sys2Proof.Machine

/-- A flag's byte: 1 or 0. -/
def flagByte (c : Bool) : Byte := if c then 1#8 else 0#8

/-- The carry of `a + b`, from the 9-bit sum (42_alu.md R186). -/
def carryFlag (a b : Byte) : Byte := flagByte (255 < a.toNat + b.toNat)

/-- "No borrow occurred" in `a - b`: 1 when `a ≥ b` (42_alu.md R187, R189). -/
def noBorrowFlag (a b : Byte) : Byte := flagByte (b.toNat ≤ a.toNat)

/-- The bit a shift right moves out: bit 0 before the shift (42_alu.md R188). -/
def shiftedOutRight (v : Byte) : Byte := v &&& 1#8

/-- The bit a shift left moves out: bit 7 before the shift (42_alu.md R190). -/
def shiftedOutLeft (v : Byte) : Byte := (v >>> 7) &&& 1#8

/-- The logical-flag-reset quirk, after the operation (42_alu.md R183 to R185). -/
def State.logicalFlagReset (s : State) : State := if s.cfg.quirks.vfReset then s.setFlag 0#8 else s

/-- VF after a draw: 1 when a pixel went from set to clear (44_display.md R232, D11). -/
def collisionFlag (collided : Bool) : Byte := flagByte collided

end Sys2Proof.Machine
end

