-- ==== Sys2Proof/Machine/Control.lean ====
section
/-! DEFINITION. The control flow instructions (41_control_flow.md). `pc` is already past the instruction's word (40_engine_cycle.md R132). -/

namespace Sys2Proof.Machine

/-- RET, 00EE (R162). -/
def execRet (s : State) : Host.Outcome State Fault Refusal :=
  s.conclude (encode .ret)
    (match s.pop with
    | .ok (a, t) => .ok (t.setPc a)
    | .error e => .error e)

/-- SYS nnn, 0NNN (R161): always the fatal error NativeCallUnimplemented. -/
def execSys (nnn : BitVec 12) (s : State) : Host.Outcome State Fault Refusal :=
  s.conclude (encode (.sys nnn)) (.error { kind := .nativeCallUnimplemented, memAddr := none })

/-- JP nnn, 1NNN (R163). -/
def execJp (nnn : BitVec 12) (s : State) : Host.Outcome State Fault Refusal :=
  .next (s.setPc (addrImm nnn))

/-- CALL nnn, 2NNN (R164): the address pushed is `pc`, the instruction after the call. -/
def execCall (nnn : BitVec 12) (s : State) : Host.Outcome State Fault Refusal :=
  s.conclude (encode (.call nnn))
    (match s.push s.pc with
    | .ok t => .ok (t.setPc (addrImm nnn))
    | .error e => .error e)

/-- SE Vx, nn, 3XNN (R165). -/
def execSeImm (x : Reg) (nn : Byte) (s : State) : Host.Outcome State Fault Refusal :=
  .next (s.skipIf (s.getV x = nn))

/-- SNE Vx, nn, 4XNN (R166). -/
def execSneImm (x : Reg) (nn : Byte) (s : State) : Host.Outcome State Fault Refusal :=
  .next (s.skipIf (s.getV x ≠ nn))

/-- SE Vx, Vy, 5XY0 (R167). -/
def execSeReg (x y : Reg) (s : State) : Host.Outcome State Fault Refusal :=
  .next (s.skipIf (s.getV x = s.getV y))

/-- SNE Vx, Vy, 9XY0 (R168). -/
def execSneReg (x y : Reg) (s : State) : Host.Outcome State Fault Refusal :=
  .next (s.skipIf (s.getV x ≠ s.getV y))

/-- JP V0, nnn, BNNN (R169). -/
def execJpV0 (nnn : BitVec 12) (s : State) : Host.Outcome State Fault Refusal :=
  .next (s.setPc (s.jumpTarget nnn))

end Sys2Proof.Machine
end

