-- ==== Sys2Proof/Machine/Display.lean ====
section
/-! DEFINITION. The display instructions and the vertical-blank synchroniser (44_display.md). -/

namespace Sys2Proof.Machine

/-- CLS, 00E0 (R231): not gated, and `changed` is set even when the grid was clear (D13). -/
def execCls (s : State) : Host.Outcome State Fault Refusal :=
  .next { s with grid := clearGrid, changed := true }

/-- What a draw has done so far: the grid, whether a pixel went from set to clear, and the changed flag. -/
structure Blit where
  grid     : Grid
  collided : Bool
  changed  : Bool
  deriving DecidableEq, Repr

/-- A set sprite bit at `(px, py)` toggles the pixel it lands on, if it lands on the grid (R232, R235). -/
def blitPixel (wrap : Bool) (px py : Nat) (b : Blit) : Blit :=
  match place wrap px py with
  | none => b
  | some (x, y) =>
    { grid := b.grid.toggle x y, collided := b.collided || b.grid.pixel x y, changed := true }

/-- The 8 - c columns of a sprite row from column `c` on, the row starting at `(x0, py)` (R232); `k` is 8 - c. -/
def blitColumns (wrap : Bool) (x0 py : Nat) (row : Byte) : Nat → Nat → Blit → Blit
  | 0, _, b => b
  | k + 1, c, b =>
    blitColumns wrap x0 py row k (c + 1) (if spriteBit row c then blitPixel wrap (x0 + c) py b else b)

/-- The rows of a sprite in order, the first at row `py` (R232). -/
def blitRows (wrap : Bool) (x0 py : Nat) : List Byte → Blit → Blit
  | [], b => b
  | row :: rows, b => blitRows wrap x0 (py + 1) rows (blitColumns wrap x0 py row 8 0 b)

/-- The draw that the sprite's bytes make from the state's grid (R232). -/
def State.blit (s : State) (x y : Reg) (rows : List Byte) : Blit :=
  blitRows s.cfg.quirks.wrap (s.startColumn x) (s.startRow y) rows
    { grid := s.grid, collided := false, changed := s.changed }

/-- The state after the sprite's bytes are drawn: VF is written after the coordinates are read (R232, D11). -/
def State.drawRows (s : State) (x y : Reg) (rows : List Byte) : State :=
  State.setFlag { s with grid := (s.blit x y rows).grid, changed := (s.blit x y rows).changed }
    (collisionFlag (s.blit x y rows).collided)

/-- A draw that proceeds: every row is read (D12), then the sprite is drawn (R232). DEDUCED (log 11), safe: reading all rows before
drawing changes nothing, since a draw writes no memory. -/
def State.draw (s : State) (x y : Reg) (n : BitVec 4) : Except Raise State :=
  match s.readBytes s.idx.toNat n.toNat with
  | .error e => .error e
  | .ok rows => .ok (s.drawRows x y rows)

/-- The display gate: whether the draw proceeds, and `vblank` after (R234). -/
def displayGate : VBlank → Bool × VBlank
  | .free => (true, .waitingForDraw)
  | .waitingForDraw => (false, .waitingForInterrupt)
  | .waitingForInterrupt => (false, .waitingForInterrupt)

/-- A rejected draw: `pc` is set back to the draw's address, and nothing but `vblank` changes besides (R233). -/
def State.rejectDraw (s : State) (after : VBlank) : State :=
  { s with vblank := after, pc := s.pc - 2#16 }

/-- DRW Vx, Vy, n, DXYN (R232 to R237). -/
def execDrw (x y : Reg) (n : BitVec 4) (s : State) : Host.Outcome State Fault Refusal :=
  s.conclude (encode (.drw x y n))
    (if n = 0#4 ∧ s.cfg.dxy0Policy = .refuse then .error { kind := .unmodelled, memAddr := none }
    else if s.cfg.quirks.dispWait then
      if (displayGate s.vblank).1 then State.draw { s with vblank := (displayGate s.vblank).2 } x y n
      else .ok (s.rejectDraw (displayGate s.vblank).2)
    else s.draw x y n)

/-- `VblankRelease()` (R236). -/
def vblankRelease (c : Config) : VBlank → VBlank
  | .waitingForInterrupt => .free
  | .waitingForDraw => if c.vblankReleaseWfd then .free else .waitingForDraw
  | .free => .free

end Sys2Proof.Machine
end

