-- ==== Sys2Proof/Machine/IndexMem.lean ====
section
/-! DEFINITION. The index register and memory instructions (43_index_memory.md). -/

namespace Sys2Proof.Machine

/-- LD I, nnn, ANNN (R211). -/
def execLdI (nnn : BitVec 12) (s : State) : Host.Outcome State Fault Refusal :=
  .next (s.setIdx (addrImm nnn))

/-- ADD I, Vx, FX1E (R212): no flag. -/
def execAddI (x : Reg) (s : State) : Host.Outcome State Fault Refusal :=
  s.conclude (encode (.addI x)) (s.indexAdd (s.getV x).toNat)

/-- LD F, Vx, FX29 (R213). -/
def execLdF (x : Reg) (s : State) : Host.Outcome State Fault Refusal :=
  .next (s.setIdx (glyphAddr (s.getV x)))

/-- LD B, Vx, FX33 (R214). -/
def execLdB (x : Reg) (s : State) : Host.Outcome State Fault Refusal :=
  s.conclude (encode (.ldB x)) (s.writeBytes s.idx.toNat (bcdDigits (s.getV x)))

/-- LD [I], Vx, FX55 (R215): the stores, then the increment. -/
def execStoreRegs (x : Reg) (s : State) : Host.Outcome State Fault Refusal :=
  s.conclude (encode (.storeRegs x))
    (match s.writeBytes s.idx.toNat (s.regRun x) with
    | .ok t => t.memIncrement x
    | .error e => .error e)

/-- LD Vx, [I], FX65 (R216): the loads, then the increment. -/
def execLoadRegs (x : Reg) (s : State) : Host.Outcome State Fault Refusal :=
  s.conclude (encode (.loadRegs x))
    (match s.readBytes s.idx.toNat (runLength x) with
    | .ok bs => State.memIncrement { s with v := loadRegsFrom 0 bs s.v } x
    | .error e => .error e)

end Sys2Proof.Machine
end

