-- ==== Sys2Proof/Machine/TimerKey.lean ====
section
/-! DEFINITION. The timer and key instructions (45_timers_keys.md). -/

namespace Sys2Proof.Machine

/-- LD Vx, DT, FX07 (R260). -/
def execLdVxDt (x : Reg) (s : State) : Host.Outcome State Fault Refusal :=
  .next (s.setV x s.dt)

/-- LD DT, Vx, FX15 (R261). -/
def execLdDtVx (x : Reg) (s : State) : Host.Outcome State Fault Refusal :=
  .next { s with dt := s.getV x }

/-- LD ST, Vx, FX18 (R262). -/
def execLdStVx (x : Reg) (s : State) : Host.Outcome State Fault Refusal :=
  .next { s with st := s.getV x }

/-- SKP Vx, EX9E (R263). -/
def execSkp (x : Reg) (s : State) : Host.Outcome State Fault Refusal :=
  .next (s.skipIf (s.keyPressed x))

/-- SKNP Vx, EXA1 (R264). -/
def execSknp (x : Reg) (s : State) : Host.Outcome State Fault Refusal :=
  .next (s.skipIf (!s.keyPressed x))

/-- LD Vx, K, FX0A (R265): blocks in every case, and consumes no key of the step (D18). -/
def execLdVxK (x : Reg) (s : State) : Host.Outcome State Fault Refusal :=
  .next { s with blocked := true, waitReg := x }

end Sys2Proof.Machine
end

