-- ==== Sys2Proof/Machine/HostOps.lean ====
section
/-! DEFINITION. The host's operations other than the step (40_engine_cycle.md R135 to R138; 70_reset_and_hazards.md R340, R341;
60_exceptions.md R309). -/

namespace Sys2Proof.Machine

/-- The longest program image: 0x200 + 3584 = 4096 (70_reset_and_hazards.md R341). -/
def maxImage : Nat := 3584

/-- The address a program is placed at, and the reset value of `pc` (70_reset_and_hazards.md R340). -/
def loadAddr : Nat := 0x200

/-- A fresh session with the configuration `c` and no image: every piece of the engine's state at the value of 10_state.md R39. The
host's side (what it has issued, its last inputs and snapshot) is no part of the engine and stays (log 12). -/
def State.freshSession (s : State) (c : Config) : State :=
  { s with
    mem := [], v := Vector.replicate 16 0#8, idx := 0#16, pc := BitVec.ofNat 16 loadAddr, stack := [], dt := 0#8, st := 0#8,
    grid := clearGrid, changed := false, blocked := false, waitReg := 0, vblank := .free, halt := none, cfg := c }

/-- `load(image)` under the configuration `c` (70_reset_and_hazards.md R340). An image too long is refused before any state changes
(R341); DEDUCED (log 12), safe: the session before it, if any, goes on. -/
def State.load (s : State) (c : Config) (image : List Byte) : State :=
  if image.length ≤ maxImage then (s.freshSession c).placeBytes loadAddr image else s

/-- `deliver_key(k)` (40_engine_cycle.md R135). -/
def State.deliverKey (s : State) (k : Reg) : State :=
  if s.halt.isSome || !s.blocked then s
  else { s.setV s.waitReg (BitVec.ofNat 8 k.val) with blocked := false }

/-- A timer's tick: down by one, floor at zero (60_exceptions.md R309). -/
def tick (t : Byte) : Byte := if t = 0#8 then 0#8 else t - 1#8

/-- `TimerTick()` (60_exceptions.md R309). -/
def State.timerTick (s : State) : State := { s with dt := tick s.dt, st := tick s.st }

/-- `frame_boundary()`: the vertical-blank release, then the timers (40_engine_cycle.md R136). -/
def State.frameBoundary (s : State) : State :=
  if s.halt.isSome then s else State.timerTick { s with vblank := vblankRelease s.cfg s.vblank }

/-- `ack_display()`: the snapshot is handed to the host and `changed` is cleared (40_engine_cycle.md R137). -/
def State.ackDisplay (s : State) : State := { s with snapshot := some s.grid, changed := false }

/-- What the host may observe at any time between operations (40_engine_cycle.md R138). -/
structure Observation where
  blocked : Bool
  changed : Bool
  grid    : Grid
  st      : Byte
  halt    : Option HaltRecord
  deriving DecidableEq, Repr

/-- The observations of a state; taking them changes nothing (40_engine_cycle.md R138). -/
def State.observation (s : State) : Observation :=
  { blocked := s.blocked, changed := s.changed, grid := s.grid, st := s.st, halt := s.halt }

end Sys2Proof.Machine
end

