-- ==== Sys2Proof/Machine/Cycle.lean ====
section
/-! DEFINITION. Fetch, decode and execute (40_engine_cycle.md R131 to R133), and the performance of one host operation (R130). -/

namespace Sys2Proof.Machine

/-- The two bytes at `pc` and `pc + 1` in order (40_engine_cycle.md R132): the first out of range raises. -/
def State.fetchBytes (s : State) : Except Raise (List Byte) := s.readBytes s.pc.toNat 2

/-- The word at the head of fetched bytes, big-endian (20_memory.md R64). -/
def fetchedWord : List Byte → Word
  | hi :: lo :: _ => wordOfBytes hi lo
  | _ => 0#16

/-- Decode and execute the fetched bytes with `pc` already advanced (40_engine_cycle.md R133): an illegal word is a fatal error. -/
def State.executeBytes (s : State) (bs : List Byte) : Host.Outcome State Fault Refusal :=
  match decode bs with
  | .ok (i, _) => exec i s
  | .error _ => .next (s.raise (fetchedWord bs) { kind := .illegalInstruction, memAddr := none })

/-- Fetch and execute one instruction (40_engine_cycle.md R132, R133). A fetch that faults does not advance `pc`. -/
def State.fetchExecute (s : State) : Host.Outcome State Fault Refusal :=
  match s.fetchBytes with
  | .error e => .next (s.raiseFetch e)
  | .ok bs => (s.setPc (s.pc + 2#16)).executeBytes bs

/-- `step(key, rnd)` (40_engine_cycle.md R131): no change while halted or blocked. -/
def State.engineStep (s : State) (key : Option Reg) (rnd : Byte) : Host.Outcome State Fault Refusal :=
  if s.halt.isSome || s.blocked then .next s
  else State.fetchExecute { s with key := key, rnd := rnd }

/-- Perform one operation of the host, atomically (40_engine_cycle.md R130, R139). -/
def State.perform (s : State) : HostOp → Host.Outcome State Fault Refusal
  | .load c image => .next (s.load c image)
  | .step key rnd => s.engineStep key rnd
  | .deliverKey k => .next (s.deliverKey k)
  | .frameBoundary => .next s.frameBoundary
  | .ackDisplay => .next s.ackDisplay
  | .observe => .next s

/-- The operation to perform next, and the state with it taken: the oldest the host has issued. DESIGN CHOICE (log 3): when it has
issued none, a step with free inputs. -/
def State.nextOp (s : State) : HostOp × State :=
  match s.schedule with
  | op :: rest => (op, { s with schedule := rest })
  | [] => (.step (Config.freeKey s.draws) (Config.freeByte s.draws), { s with draws := s.draws + 1 })

/-- One transition of the model: the host's next operation is performed. -/
def State.advance (s : State) : Host.Outcome State Fault Refusal := s.nextOp.2.perform s.nextOp.1

/-- The state with an instruction's two bytes stored at `pc`, and nothing that keeps the next step from fetching them (log 13). -/
def State.placeFetchWord (s : State) (nbits w : Nat) : State :=
  State.placeBytes { s with schedule := [], blocked := false, halt := none } s.pc.toNat
    [highByte (tableWord nbits w), lowByte (tableWord nbits w)]

end Sys2Proof.Machine
end

