-- ==== Sys2Proof/Machine/Step.lean ====
section
/-! DEFINITION. The step of the machine, and the placing of a word for it to fetch. -/

namespace Sys2Proof.Machine

/-- One transition (40_engine_cycle.md R130, R139). -/
def step (s : State) : Host.Outcome State Fault Refusal := s.advance

/-- The state whose next step fetches and runs the instruction with the bits `w` (log 13): its bytes are stored at `pc`, and the
schedule, `blocked` and `halt` are cleared, since with any of them set the next step would not fetch. -/
def State.withFetchWord (s : State) (nbits w : Nat) : State := s.placeFetchWord nbits w

end Sys2Proof.Machine
end

