-- ==== Sys2Proof/Safety.lean ====
section
/-! DEFINITION. The terms claims about the machine are stated in: outcomes that are next states, frames, the invariant every step keeps,
the control states and ends of a run, and what a host may issue. -/

namespace Sys2Proof.Machine

/-- The outcome is a next state, and `P` holds of it. -/
def Gives (o : Host.Outcome State Fault Refusal) (P : State → Prop) : Prop := ∃ t, o = .next t ∧ P t

/-- The outcome is a next state whose session has ended with the record `h`. Nothing else of that state is said, since 00_scope.md R10 and
60_exceptions.md R302 let no claim read it. -/
def Halts (o : Host.Outcome State Fault Refusal) (h : HaltRecord) : Prop := Gives o (fun t => t.halt = some h)

/-! ### Frames -/

/-- A piece of the engine's state that an instruction may change (10_state.md). -/
inductive Piece where
  | reg (r : Reg)
  | cell (a : Nat)
  | idx
  | pc
  | stack
  | dt
  | st
  | pixel (x : Fin 64) (y : Fin 32)
  | changed
  | keyWait
  | vblank
  | halt
  deriving DecidableEq, Repr

/-- `t` differs from `s` only in pieces of the set `P`. Memory is compared byte by byte at every address; the configuration and the
model's own fields do not change at all. -/
structure SameBut (P : Piece → Prop) (s t : State) : Prop where
  reg      : ∀ r, ¬P (.reg r) → t.getV r = s.getV r
  cell     : ∀ a, ¬P (.cell a) → t.readByte a = s.readByte a
  idx      : ¬P .idx → t.idx = s.idx
  pc       : ¬P .pc → t.pc = s.pc
  stack    : ¬P .stack → t.stack = s.stack
  dt       : ¬P .dt → t.dt = s.dt
  st       : ¬P .st → t.st = s.st
  pixel    : ∀ x y, ¬P (.pixel x y) → t.grid.pixel x y = s.grid.pixel x y
  changed  : ¬P .changed → t.changed = s.changed
  keyWait  : ¬P .keyWait → t.blocked = s.blocked ∧ t.waitReg = s.waitReg
  vblank   : ¬P .vblank → t.vblank = s.vblank
  halt     : ¬P .halt → t.halt = s.halt
  cfg      : t.cfg = s.cfg
  schedule : t.schedule = s.schedule
  inputs   : t.key = s.key ∧ t.rnd = s.rnd ∧ t.draws = s.draws
  snapshot : t.snapshot = s.snapshot

/-! ### Words and sprites, by arithmetic on the spec's own numbers -/

/-- The words of 30_encoding.md R96's table, by the value of the word: first nibble, last nibble and low byte. -/
def IllegalWord (w : Word) : Prop :=
  (w.toNat / 4096 = 5 ∧ w.toNat % 16 ≠ 0) ∨
  (w.toNat / 4096 = 8 ∧ w.toNat % 16 ∈ [0x8, 0x9, 0xA, 0xB, 0xC, 0xD, 0xF]) ∨
  (w.toNat / 4096 = 9 ∧ w.toNat % 16 ≠ 0) ∨
  (w.toNat / 4096 = 14 ∧ w.toNat % 256 ∉ [0x9E, 0xA1]) ∨
  (w.toNat / 4096 = 15 ∧ w.toNat % 256 ∉ [0x07, 0x0A, 0x15, 0x18, 0x1E, 0x29, 0x33, 0x55, 0x65])

/-- A set bit of the sprite of `n` rows at `I` lands on the pixel `(px, py)` of a draw at `(V[x] & 63, V[y] & 31)` (44_display.md R232, R235). -/
def State.covers (s : State) (x y : Reg) (n : Nat) (px : Fin 64) (py : Fin 32) : Prop :=
  ∃ r c, r < n ∧ c < 8 ∧ (s.readByte (s.idx.toNat + r)).getLsbD (7 - c) = true ∧
    (if s.cfg.quirks.wrap then
      px.val = ((s.getV x).toNat % 64 + c) % 64 ∧ py.val = ((s.getV y).toNat % 32 + r) % 32
    else px.val = (s.getV x).toNat % 64 + c ∧ py.val = (s.getV y).toNat % 32 + r)

/-- DXYN is a draw the model gives a meaning: its row count is not 0, or the policy draws zero rows (44_display.md R237). -/
def State.drawable (s : State) (n : BitVec 4) : Prop := n ≠ 0#4 ∨ s.cfg.dxy0Policy = .zeroRows

/-- The display gate lets a draw proceed: the quirk is off, or the draw slot is free (44_display.md R234). -/
def State.gateOpen (s : State) : Prop := s.cfg.quirks.dispWait = true → s.vblank = .free

/-- Every row of a sprite of `n` rows at `I` is in memory (44_display.md R232). -/
def State.spriteInMemory (s : State) (n : Nat) : Prop := ∀ r, r < n → s.idx.toNat + r < 4096

/-- The record of a fatal error of the instruction `i` executed in `s`, `pc` being 2 past it (60_exceptions.md R300, R301). -/
def State.record (s : State) (i : Instr) (kind : HaltKind) (memAddr : Option Nat) : HaltRecord :=
  { kind := kind, instrAddr := s.pc - 2#16, word := some (encode i), memAddr := memAddr }

/-- `a + r` is the first address out of range of accesses at `a`, `a + 1`, … (60_exceptions.md R303). -/
def FirstOutOfRange (a r : Nat) : Prop := 4096 ≤ a + r ∧ ∀ q, q < r → a + q < 4096

/-- The word in memory at `pc` (20_memory.md R64). -/
def State.nextWord (s : State) : Word := wordOfBytes (s.readByte s.pc.toNat) (s.readByte (s.pc.toNat + 1))

/-- The engine runs: it is neither halted nor blocked (40_engine_cycle.md R131). -/
def State.runs (s : State) : Prop := s.halt = none ∧ s.blocked = false

/-! ### The invariant -/

/-- A host operation that carries a configuration carries an allowed one (00_scope.md R7). -/
def HostOp.wf : HostOp → Bool
  | .load c _ => c.wf
  | _ => true

/-- What holds of the data in every state, running or halted: memory in its canonical form (log 5), configurations allowed. -/
abbrev State.DataInv (s : State) : Prop :=
  Memory.wf (resetByte s.cfg) s.mem = true ∧ s.cfg.wf = true ∧ s.schedule.all HostOp.wf = true

/-- What holds of an engine that has not halted: the stack is no deeper than `STACK_DEPTH` and holds addresses an instruction can follow
(10_state.md R27, R26), `pc` is at most 0x10FE (R26), and `vblank` is Free without the display-wait quirk (R32). -/
abbrev State.EngineInv (s : State) : Prop :=
  s.stack.length ≤ s.cfg.stackDepth ∧ (∀ a ∈ s.stack, a.toNat ≤ 0x1000) ∧ s.pc.toNat ≤ 0x10FE ∧
    (s.cfg.quirks.dispWait = false → s.vblank = .free)

/-- The invariant. Of a halted engine it says nothing but what holds of the data (00_scope.md R10). -/
abbrev State.Inv (s : State) : Prop := s.DataInv ∧ (s.halt = none → s.EngineInv)

/-! ### Control states and ends of a run -/

/-- The control states of 40_engine_cycle.md R140. -/
inductive ControlState where
  | running
  | blocked
  | halted
  deriving DecidableEq, Repr

/-- The control state, a function of `halt` and `blocked` (40_engine_cycle.md R140). -/
def State.controlState (s : State) : ControlState :=
  if s.halt.isSome then .halted else if s.blocked then .blocked else .running

/-- The idle end: `pc` is at a jump to itself, and the engine runs (70_reset_and_hazards.md R349). -/
def State.idleEnd (s : State) : Prop :=
  s.controlState = .running ∧ ∃ nnn, s.fetchBytes = .ok (encodeBytes (.jp nnn)) ∧ addrImm nnn = s.pc

/-! ### What a host may issue -/

/-- Between two frame boundaries a host in mode (a) issues at most `budget` steps, `CYCLES_PER_FRAME` (60_exceptions.md R314, R316); `left` is
what is left of the budget. The model performs every schedule, these among them (log 10). DESIGN CHOICE (log 15), unsafe for a claim that
assumes it: a step counts whether the engine runs, is blocked or is halted, where R315 and D30 leave open whether a blocked one does.
DESIGN CHOICE (log 16), unsafe likewise: a load between two frame boundaries begins no new frame, on which the spec is silent. -/
def withinBudget (budget : Nat) : Nat → List HostOp → Bool
  | _, [] => true
  | left, .step _ _ :: ops => 0 < left && withinBudget budget (left - 1) ops
  | _, .frameBoundary :: ops => withinBudget budget budget ops
  | left, _ :: ops => withinBudget budget left ops

/-- A session begins with a load (60_exceptions.md R316: "load before the first step"). -/
def beginsWithLoad : List HostOp → Bool
  | .load _ _ :: _ => true
  | _ => false

end Sys2Proof.Machine
end

