-- ==== Sys2Proof/Certificates/Slice0/Obligations.lean ====
section
/-! DEFINITION. The statements about the machine, from the spec's rules. A statement about an instruction is about `exec`, in which `pc` is
already 2 past the instruction's word (40_engine_cycle.md R132). -/

open Sys2Proof Sys2Proof.Machine

/-! ### Encoding -/

/-- Words written out from 30_encoding.md's opcode map decode to the instructions they stand for. -/
def Obligations.OpcodeMapWordsDecode : Prop :=
  decodeWord 0x00E0#16 = .ok .cls ∧ decodeWord 0x0123#16 = .ok (.sys 0x123#12) ∧
  decodeWord 0x2300#16 = .ok (.call 0x300#12) ∧ decodeWord 0x3310#16 = .ok (.seImm 3 0x10#8) ∧
  decodeWord 0x8126#16 = .ok (.shr 1 2) ∧ decodeWord 0xB234#16 = .ok (.jpV0 0x234#12) ∧
  decodeWord 0xD125#16 = .ok (.drw 1 2 5#4) ∧ decodeWord 0xE5A1#16 = .ok (.sknp 5) ∧
  decodeWord 0xF30A#16 = .ok (.ldVxK 3) ∧ decodeWord 0xFF65#16 = .ok (.loadRegs 15) ∧
  decodeWord 0x5121#16 = .error (.illegalInstruction 0x5121#16)

/-- Decoding the bytes of any well-formed instruction gives that instruction and the bytes after it: no operand bit is dropped
(30_encoding.md, opcode map). -/
def Obligations.EncodeThenDecodeIsIdentity : Prop :=
  ∀ (i : Instr) (rest : List Byte), i.wf = true → decode (encodeBytes i ++ rest) = .ok (i, rest)

/-- A word that decodes is the encoding of the instruction it decodes to, which is well-formed: no two words are one instruction. -/
def Obligations.DecodeThenEncodeIsIdentity : Prop :=
  ∀ (w : Word) (i : Instr), decodeWord w = .ok i → i.wf = true ∧ encode i = w

/-- The words that do not decode are exactly those of the table of illegal words, and the rejection names the word. -/
def Obligations.IllegalWordsAreExactlyTheTable : Prop :=
  ∀ w : Word, (IllegalWord w → decodeWord w = .error (.illegalInstruction w)) ∧
    ∀ e, decodeWord w = .error e → e = .illegalInstruction w ∧ IllegalWord w

/-! ### The step and the host's operations -/

/-- While the engine runs, a step whose fetched word decodes to `i` is the execution of `i` with the operation taken from the schedule, the
inputs of the step in place and `pc` 2 further; with no operation issued the inputs are free (the model's choice, log 3). -/
def Obligations.StepRunsTheDecodedInstruction : Prop :=
  ∀ (s : State) (i : Instr), s.runs → s.pc.toNat + 1 < 4096 → decodeWord s.nextWord = .ok i →
    (∀ key rnd rest, s.schedule = .step key rnd :: rest →
      step s = exec i { s with schedule := rest, key := key, rnd := rnd, pc := s.pc + 2#16 }) ∧
    (s.schedule = [] →
      step s = exec i { s with draws := s.draws + 1, key := Config.freeKey s.draws, rnd := Config.freeByte s.draws, pc := s.pc + 2#16 })

/-- The fetch reads the two bytes at `pc` and `pc + 1`, in every state in which both are in memory; the first is bits 15 to 8 of the word
executed, the second bits 7 to 0. -/
def Obligations.FetchIsBigEndian : Prop :=
  ∀ s : State, s.pc.toNat + 1 < 4096 →
    s.fetchBytes = .ok [s.readByte s.pc.toNat, s.readByte (s.pc.toNat + 1)] ∧
    (∀ i, i < 8 → s.nextWord.getLsbD (8 + i) = (s.readByte s.pc.toNat).getLsbD i) ∧
    (∀ i, i < 8 → s.nextWord.getLsbD i = (s.readByte (s.pc.toNat + 1)).getLsbD i) ∧
    fetchedWord [s.readByte s.pc.toNat, s.readByte (s.pc.toNat + 1)] = s.nextWord

/-- A fetch at 0xFFF or above ends the session with AddressOutOfRange: the record holds the fetch address, no word, and the first of the
two addresses that is out of range. -/
def Obligations.FetchOutOfRangeHalts : Prop :=
  ∀ (s : State) (key : Option Reg) (rnd : Byte), s.runs → 4096 ≤ s.pc.toNat + 1 →
    Halts (s.perform (.step key rnd))
      { kind := .addressOutOfRange, instrAddr := s.pc, word := none,
        memAddr := some (if s.pc.toNat < 4096 then s.pc.toNat + 1 else s.pc.toNat) }

/-- A step that fetches an illegal word ends the session with IllegalInstruction, the word and the address it was fetched from. -/
def Obligations.IllegalWordHalts : Prop :=
  ∀ (s : State) (key : Option Reg) (rnd : Byte), s.runs → s.pc.toNat + 1 < 4096 → IllegalWord s.nextWord →
    Halts (s.perform (.step key rnd))
      { kind := .illegalInstruction, instrAddr := s.pc, word := some s.nextWord, memAddr := none }

/-- Whatever fatal error a step that completed its fetch ends in, the record names the word fetched and the address it was fetched from. -/
def Obligations.FaultNamesTheFetchedWord : Prop :=
  ∀ (s t : State) (key : Option Reg) (rnd : Byte) (h : HaltRecord), s.runs → s.pc.toNat + 1 < 4096 →
    s.perform (.step key rnd) = .next t → t.halt = some h → h.instrAddr = s.pc ∧ h.word = some s.nextWord

/-- A step changes nothing while the engine is halted or blocked, and a halted engine's key delivery and frame boundary change nothing. -/
def Obligations.HaltedOrBlockedEngineDoesNothing : Prop :=
  ∀ s : State, ((s.halt.isSome = true ∨ s.blocked = true) → ∀ key rnd, s.perform (.step key rnd) = .next s) ∧
    (s.halt.isSome = true → (∀ k, s.perform (.deliverKey k) = .next s) ∧ s.perform .frameBoundary = .next s)

/-- A halted engine stays halted with the same record, unless the operation performed is the load of an image that fits. -/
def Obligations.OnlyALoadClearsTheHalt : Prop :=
  ∀ (s t : State) (h : HaltRecord), s.halt = some h → step s = .next t →
    t.halt = some h ∨ ∃ c image rest, s.schedule = .load c image :: rest ∧ image.length ≤ 3584 ∧ t.halt = none

/-- Key delivery while the engine waits writes the key to the recorded register and clears `blocked`, and changes nothing else; while it
does not wait, it changes nothing (the spec's decision D18). -/
def Obligations.DeliverKeyEndsTheWait : Prop :=
  ∀ (s : State) (k : Reg),
    (s.halt = none → s.blocked = true → Gives (s.perform (.deliverKey k)) (fun t =>
      (t.getV s.waitReg).toNat = k.val ∧ t.blocked = false ∧ t.waitReg = s.waitReg ∧
      SameBut (fun p => p = .reg s.waitReg ∨ p = .keyWait) s t)) ∧
    (s.blocked = false → s.perform (.deliverKey k) = .next s)

/-- Each frame boundary takes both timers down by one, with a floor at zero. -/
def Obligations.FrameBoundaryTicksTheTimers : Prop :=
  ∀ s : State, s.halt = none → Gives (s.perform .frameBoundary) (fun t =>
    t.dt.toNat = s.dt.toNat - 1 ∧ t.st.toNat = s.st.toNat - 1)

/-- The frame boundary frees WaitingForInterrupt, frees WaitingForDraw only under VBLANK_RELEASE_WFD (the spec's decision D14), and changes
nothing but that and the timers. -/
def Obligations.FrameBoundaryReleasesTheDisplayWait : Prop :=
  ∀ s : State, s.halt = none → Gives (s.perform .frameBoundary) (fun t =>
    t.vblank = (if s.vblank = .waitingForDraw ∧ s.cfg.vblankReleaseWfd = false then .waitingForDraw else .free) ∧
    SameBut (fun p => p = .dt ∨ p = .st ∨ p = .vblank) s t)

/-- The renderer's acknowledge hands out the grid as it is, clears `changed`, and changes nothing else, halted or not. -/
def Obligations.AckDisplayClearsChanged : Prop :=
  ∀ s : State, Gives (s.perform .ackDisplay) (fun t =>
    t.snapshot = some s.grid ∧ t.changed = false ∧
    SameBut (fun p => p = .changed) { s with snapshot := some s.grid } t)

/-- The load of an image that fits, in any state, leaves every piece of the engine's state at its reset value, the font and the image placed;
the host's side stays (the model's choice, log 12). -/
def Obligations.LoadEstablishesTheSession : Prop :=
  ∀ (s : State) (c : Config) (image : List Byte), image.length ≤ 3584 → Gives (s.perform (.load c image)) (fun t =>
    (∀ a, t.readByte a =
      if 0x200 ≤ a ∧ a < 0x200 + image.length then image.getD (a - 0x200) 0#8
      else if h : a < 80 then c.font[a] else 0#8) ∧
    (∀ r, t.getV r = 0#8) ∧ t.idx = 0#16 ∧ t.pc = 0x200#16 ∧ t.stack = [] ∧ t.dt = 0#8 ∧ t.st = 0#8 ∧
    (∀ x y, t.grid.pixel x y = false) ∧ t.changed = false ∧ t.blocked = false ∧ t.waitReg = 0 ∧ t.vblank = .free ∧
    t.halt = none ∧ t.cfg = c ∧
    t.schedule = s.schedule ∧ t.key = s.key ∧ t.rnd = s.rnd ∧ t.draws = s.draws ∧ t.snapshot = s.snapshot)

/-- The load of an image of more than 3584 bytes is refused before any state changes (the spec's decision D23). -/
def Obligations.OverlongImageChangesNothing : Prop :=
  ∀ (s : State) (c : Config) (image : List Byte), 3584 < image.length → s.perform (.load c image) = .next s

/-- The reset state holds the reset values of 10_state.md's table for an empty image (some of them the spec's decision D22). -/
def Obligations.ResetHoldsTheResetValues : Prop :=
  (∀ a, State.reset.readByte a = if h : a < 80 then State.reset.cfg.font[a] else 0#8) ∧
  (∀ r, State.reset.getV r = 0#8) ∧ State.reset.idx = 0#16 ∧ State.reset.pc = 0x200#16 ∧ State.reset.stack = [] ∧
  State.reset.dt = 0#8 ∧ State.reset.st = 0#8 ∧ (∀ x y, State.reset.grid.pixel x y = false) ∧
  State.reset.changed = false ∧ State.reset.blocked = false ∧ State.reset.waitReg = 0 ∧ State.reset.vblank = .free ∧
  State.reset.halt = none

/-- The reset state meets the invariant. -/
def Obligations.ResetMeetsTheInvariant : Prop := State.reset.Inv

/-- Every step from a state that meets the invariant leads to one that meets it: memory keeps its canonical form and its size, the
configuration stays an allowed one, and while the engine has not halted the stack is no deeper than STACK_DEPTH, `pc` is at most 0x10FE,
and `vblank` is Free without the display-wait quirk. -/
def Obligations.EveryStepKeepsTheInvariant : Prop :=
  ∀ s t : State, s.Inv → step s = .next t → t.Inv

/-- Every step of every state answers a next state: no instruction, word, fetch or operation leaves the machine without one. -/
def Obligations.EveryStepAnswersANextState : Prop := ∀ s : State, ∃ t, step s = .next t

/-- No operation but a load changes the configuration, the quirks record among it. -/
def Obligations.OnlyALoadChangesTheConfiguration : Prop :=
  ∀ s t : State, step s = .next t →
    t.cfg = s.cfg ∨ ∃ image rest, s.schedule = .load t.cfg image :: rest ∧ image.length ≤ 3584

/-- Two memories in canonical form that read the same at every address are one list (the model's representation, log 5). -/
def Obligations.CanonicalMemoriesThatReadTheSameAreEqual : Prop :=
  ∀ (d : Nat → Byte) (m m' : List Host.Cell), Memory.wf d m = true → Memory.wf d m' = true →
    (∀ a, Memory.read d m a = Memory.read d m' a) → m = m'

/-! ### Control flow -/

/-- The four register skips (SE and SNE, with an immediate or a register) add 2 to `pc` when their condition holds, and change nothing else. -/
def Obligations.RegisterSkips : Prop :=
  ∀ (s : State) (x y : Reg) (nn : Byte),
    Gives (exec (.seImm x nn) s) (fun t =>
      t.pc = (if s.getV x = nn then s.pc + 2#16 else s.pc) ∧ SameBut (fun p => p = .pc) s t) ∧
    Gives (exec (.sneImm x nn) s) (fun t =>
      t.pc = (if s.getV x = nn then s.pc else s.pc + 2#16) ∧ SameBut (fun p => p = .pc) s t) ∧
    Gives (exec (.seReg x y) s) (fun t =>
      t.pc = (if s.getV x = s.getV y then s.pc + 2#16 else s.pc) ∧ SameBut (fun p => p = .pc) s t) ∧
    Gives (exec (.sneReg x y) s) (fun t =>
      t.pc = (if s.getV x = s.getV y then s.pc else s.pc + 2#16) ∧ SameBut (fun p => p = .pc) s t)

/-- SKP skips exactly when the step's key is the full 8-bit value of V[X] (the spec's decision D17), SKNP exactly when it is not; with no key
SKP never skips and SKNP always does. Neither changes anything but `pc`. -/
def Obligations.KeySkips : Prop :=
  ∀ (s : State) (x : Reg),
    ((∃ k, s.key = some k ∧ k.val = (s.getV x).toNat) →
      Gives (exec (.skp x) s) (fun t => t.pc = s.pc + 2#16 ∧ SameBut (fun p => p = .pc) s t) ∧
      Gives (exec (.sknp x) s) (fun t => t.pc = s.pc ∧ SameBut (fun p => p = .pc) s t)) ∧
    ((∀ k, s.key = some k → k.val ≠ (s.getV x).toNat) →
      Gives (exec (.skp x) s) (fun t => t.pc = s.pc ∧ SameBut (fun p => p = .pc) s t) ∧
      Gives (exec (.sknp x) s) (fun t => t.pc = s.pc + 2#16 ∧ SameBut (fun p => p = .pc) s t))

/-- JP sets `pc` to NNN. JP V0 sets it to NNN plus V0, or plus the register NNN's leading nibble names under `jump_vx`, with no
truncation. Neither changes anything else. -/
def Obligations.JumpsSetThePc : Prop :=
  ∀ (s : State) (nnn : BitVec 12),
    Gives (exec (.jp nnn) s) (fun t => t.pc.toNat = nnn.toNat ∧ SameBut (fun p => p = .pc) s t) ∧
    Gives (exec (.jpV0 nnn) s) (fun t =>
      (∀ r : Reg, r.val = (if s.cfg.quirks.jumpVx then nnn.toNat / 256 else 0) →
        t.pc.toNat = nnn.toNat + (s.getV r).toNat) ∧
      SameBut (fun p => p = .pc) s t)

/-- CALL pushes the address after it and jumps to NNN when the stack does not hold STACK_DEPTH entries; when it does, it raises
StackOverflow (the spec's decision D7). -/
def Obligations.CallPushesTheReturnAddress : Prop :=
  ∀ (s : State) (nnn : BitVec 12),
    (s.stack.length ≠ s.cfg.stackDepth → Gives (exec (.call nnn) s) (fun t =>
      t.stack = s.pc :: s.stack ∧ t.pc.toNat = nnn.toNat ∧ SameBut (fun p => p = .pc ∨ p = .stack) s t)) ∧
    (s.stack.length = s.cfg.stackDepth → Halts (exec (.call nnn) s) (s.record (.call nnn) .stackOverflow none))

/-- RET takes `pc` from the top of the stack; on an empty stack it raises StackUnderflow. -/
def Obligations.RetPopsThePc : Prop :=
  ∀ s : State,
    (∀ a rest, s.stack = a :: rest → Gives (exec .ret s) (fun t =>
      t.pc = a ∧ t.stack = rest ∧ SameBut (fun p => p = .pc ∨ p = .stack) s t)) ∧
    (s.stack = [] → Halts (exec .ret s) (s.record .ret .stackUnderflow none))

/-- Every word of first nibble 0 other than 0x00E0 and 0x00EE is the native routine call (the spec's general knowledge G1), and executing it
always raises NativeCallUnimplemented naming the word. -/
def Obligations.NativeCallAlwaysHalts : Prop :=
  ∀ (s : State) (w : Word), w.toNat / 4096 = 0 → w ≠ 0x00E0#16 → w ≠ 0x00EE#16 →
    decodeWord w = .ok (.sys (w.setWidth 12)) ∧
    Halts (exec (.sys (w.setWidth 12)) s)
      { kind := .nativeCallUnimplemented, instrAddr := s.pc - 2#16, word := some w, memAddr := none }

/-! ### Registers and arithmetic -/

/-- LD Vx, nn; LD Vx, Vy; LD Vx, DT; RND Vx, nn write the byte their rules give into V[X], and change nothing else. The random byte is
whatever the step was given. -/
def Obligations.LoadsWriteOneRegister : Prop :=
  ∀ (s : State) (x y : Reg) (nn : Byte),
    Gives (exec (.ldImm x nn) s) (fun t => t.getV x = nn ∧ SameBut (fun p => p = .reg x) s t) ∧
    Gives (exec (.ldReg x y) s) (fun t => t.getV x = s.getV y ∧ SameBut (fun p => p = .reg x) s t) ∧
    Gives (exec (.ldVxDt x) s) (fun t => t.getV x = s.dt ∧ SameBut (fun p => p = .reg x) s t) ∧
    Gives (exec (.rnd x nn) s) (fun t => t.getV x = s.rnd &&& nn ∧ SameBut (fun p => p = .reg x) s t)

/-- ADD Vx, nn adds modulo 256 and writes no flag: with X = 15 the sum itself stays in VF. -/
def Obligations.AddImmediateWrapsWithoutFlag : Prop :=
  ∀ (s : State) (x : Reg) (nn : Byte), Gives (exec (.addImm x nn) s) (fun t =>
    (t.getV x).toNat = ((s.getV x).toNat + nn.toNat) % 256 ∧ SameBut (fun p => p = .reg x) s t)

/-- OR, AND and XOR write their result to V[X]; with `vf_reset` VF is 0 afterwards whatever X is, without it VF is written only as V[X]. -/
def Obligations.LogicalOperationsAndTheirFlag : Prop :=
  ∀ (s : State) (x y : Reg),
    Gives (exec (.orReg x y) s) (fun t =>
      (¬(s.cfg.quirks.vfReset = true ∧ x = vf) → t.getV x = s.getV x ||| s.getV y) ∧
      (s.cfg.quirks.vfReset = true → t.getV vf = 0#8) ∧
      SameBut (fun p => p = .reg x ∨ (s.cfg.quirks.vfReset = true ∧ p = .reg vf)) s t) ∧
    Gives (exec (.andReg x y) s) (fun t =>
      (¬(s.cfg.quirks.vfReset = true ∧ x = vf) → t.getV x = s.getV x &&& s.getV y) ∧
      (s.cfg.quirks.vfReset = true → t.getV vf = 0#8) ∧
      SameBut (fun p => p = .reg x ∨ (s.cfg.quirks.vfReset = true ∧ p = .reg vf)) s t) ∧
    Gives (exec (.xorReg x y) s) (fun t =>
      (¬(s.cfg.quirks.vfReset = true ∧ x = vf) → t.getV x = s.getV x ^^^ s.getV y) ∧
      (s.cfg.quirks.vfReset = true → t.getV vf = 0#8) ∧
      SameBut (fun p => p = .reg x ∨ (s.cfg.quirks.vfReset = true ∧ p = .reg vf)) s t)

/-- ADD Vx, Vy writes the sum modulo 256 to V[X] and the carry of the 9-bit sum to VF, the carry last. -/
def Obligations.AddWritesTheCarry : Prop :=
  ∀ (s : State) (x y : Reg), Gives (exec (.addReg x y) s) (fun t =>
    (x ≠ vf → (t.getV x).toNat = ((s.getV x).toNat + (s.getV y).toNat) % 256) ∧
    (t.getV vf).toNat = (if 255 < (s.getV x).toNat + (s.getV y).toNat then 1 else 0) ∧
    SameBut (fun p => p = .reg x ∨ p = .reg vf) s t)

/-- SUB writes V[X] - V[Y] and SUBN V[Y] - V[X], modulo 256, to V[X], and then "no borrow occurred" to VF. That 8XY5 is the X - Y form is the
spec's general knowledge G2. -/
def Obligations.SubtractionsWriteNoBorrow : Prop :=
  ∀ (s : State) (x y : Reg),
    Gives (exec (.sub x y) s) (fun t =>
      (x ≠ vf → (t.getV x).toNat = ((s.getV x).toNat + 256 - (s.getV y).toNat) % 256) ∧
      (t.getV vf).toNat = (if (s.getV y).toNat ≤ (s.getV x).toNat then 1 else 0) ∧
      SameBut (fun p => p = .reg x ∨ p = .reg vf) s t) ∧
    Gives (exec (.subn x y) s) (fun t =>
      (x ≠ vf → (t.getV x).toNat = ((s.getV y).toNat + 256 - (s.getV x).toNat) % 256) ∧
      (t.getV vf).toNat = (if (s.getV x).toNat ≤ (s.getV y).toNat then 1 else 0) ∧
      SameBut (fun p => p = .reg x ∨ p = .reg vf) s t)

/-- SHR and SHL shift V[X], or V[Y] copied into it first under `shift_src`, by one place into V[X], and then write the bit shifted out to VF,
taken from the value shifted (the spec's decision D33). -/
def Obligations.ShiftsWriteTheBitShiftedOut : Prop :=
  ∀ (s : State) (x y : Reg) (v : Byte), v = (if s.cfg.quirks.shiftSrc then s.getV y else s.getV x) →
    Gives (exec (.shr x y) s) (fun t =>
      (x ≠ vf → (t.getV x).toNat = v.toNat / 2) ∧ (t.getV vf).toNat = v.toNat % 2 ∧
      SameBut (fun p => p = .reg x ∨ p = .reg vf) s t) ∧
    Gives (exec (.shl x y) s) (fun t =>
      (x ≠ vf → (t.getV x).toNat = v.toNat * 2 % 256) ∧ (t.getV vf).toNat = v.toNat / 128 ∧
      SameBut (fun p => p = .reg x ∨ p = .reg vf) s t)

/-! ### Index register and memory -/

/-- LD I, nnn sets I to NNN; LD F, Vx sets it to the glyph address of V[X]'s low nibble (the mask is the spec's decision D16). -/
def Obligations.IndexLoads : Prop :=
  ∀ (s : State) (nnn : BitVec 12) (x : Reg),
    Gives (exec (.ldI nnn) s) (fun t => t.idx.toNat = nnn.toNat ∧ SameBut (fun p => p = .idx) s t) ∧
    Gives (exec (.ldF x) s) (fun t => t.idx.toNat = 5 * ((s.getV x).toNat % 16) ∧ SameBut (fun p => p = .idx) s t)

/-- ADD I, Vx adds V[X] to I and writes no flag; a sum past 0xFFFF wraps or raises IndexOverflow, as I_OVERFLOW says (the spec's decision
D8). -/
def Obligations.AddToIndex : Prop :=
  ∀ (s : State) (x : Reg),
    (s.idx.toNat + (s.getV x).toNat ≤ 0xFFFF → Gives (exec (.addI x) s) (fun t =>
      t.idx.toNat = s.idx.toNat + (s.getV x).toNat ∧ SameBut (fun p => p = .idx) s t)) ∧
    (0xFFFF < s.idx.toNat + (s.getV x).toNat → s.cfg.iOverflow = .wrap → Gives (exec (.addI x) s) (fun t =>
      t.idx.toNat = s.idx.toNat + (s.getV x).toNat - 0x10000 ∧ SameBut (fun p => p = .idx) s t)) ∧
    (0xFFFF < s.idx.toNat + (s.getV x).toNat → s.cfg.iOverflow = .fault →
      Halts (exec (.addI x) s) (s.record (.addI x) .indexOverflow none))

/-- LD B, Vx writes the hundreds, tens and ones of V[X] at I, I + 1 and I + 2 and changes nothing else; with one of the three out of range it
raises AddressOutOfRange of the first. -/
def Obligations.BcdWritesThreeDigits : Prop :=
  ∀ (s : State) (x : Reg),
    (s.idx.toNat + 2 < 4096 → Gives (exec (.ldB x) s) (fun t =>
      (t.readByte s.idx.toNat).toNat = (s.getV x).toNat / 100 ∧
      (t.readByte (s.idx.toNat + 1)).toNat = (s.getV x).toNat / 10 % 10 ∧
      (t.readByte (s.idx.toNat + 2)).toNat = (s.getV x).toNat % 10 ∧
      SameBut (fun p => p = .cell s.idx.toNat ∨ p = .cell (s.idx.toNat + 1) ∨ p = .cell (s.idx.toNat + 2)) s t)) ∧
    (∀ r, r ≤ 2 → FirstOutOfRange s.idx.toNat r →
      Halts (exec (.ldB x) s) (s.record (.ldB x) .addressOutOfRange (some (s.idx.toNat + r))))

/-- LD [I], Vx stores V0 to VX at I to I + X, then advances I by X + 1 under `mem_inc`, and changes nothing else. -/
def Obligations.BulkStore : Prop :=
  ∀ (s : State) (x : Reg), s.idx.toNat + x.val < 4096 → Gives (exec (.storeRegs x) s) (fun t =>
    (∀ r : Reg, r.val ≤ x.val → t.readByte (s.idx.toNat + r.val) = s.getV r) ∧
    t.idx.toNat = (if s.cfg.quirks.memInc then s.idx.toNat + x.val + 1 else s.idx.toNat) ∧
    SameBut (fun p => p = .idx ∨ ∃ k, k ≤ x.val ∧ p = .cell (s.idx.toNat + k)) s t)

/-- LD Vx, [I] loads V0 to VX from I to I + X, then advances I by X + 1 under `mem_inc`, and changes nothing else. -/
def Obligations.BulkLoad : Prop :=
  ∀ (s : State) (x : Reg), s.idx.toNat + x.val < 4096 → Gives (exec (.loadRegs x) s) (fun t =>
    (∀ r : Reg, r.val ≤ x.val → t.getV r = s.readByte (s.idx.toNat + r.val)) ∧
    t.idx.toNat = (if s.cfg.quirks.memInc then s.idx.toNat + x.val + 1 else s.idx.toNat) ∧
    SameBut (fun p => p = .idx ∨ ∃ r : Reg, r.val ≤ x.val ∧ p = .reg r) s t)

/-- A bulk transfer that reaches an address out of range raises AddressOutOfRange of the first. -/
def Obligations.BulkTransferOutOfRangeHalts : Prop :=
  ∀ (s : State) (x : Reg) (r : Nat), r ≤ x.val → FirstOutOfRange s.idx.toNat r →
    Halts (exec (.storeRegs x) s) (s.record (.storeRegs x) .addressOutOfRange (some (s.idx.toNat + r))) ∧
    Halts (exec (.loadRegs x) s) (s.record (.loadRegs x) .addressOutOfRange (some (s.idx.toNat + r)))

/-- After a bulk store of V0 to VX, a bulk load from the same address gives them their values back, whatever they held in between. -/
def Obligations.BulkLoadUndoesBulkStore : Prop :=
  ∀ (s : State) (x : Reg) (v : Vector Byte 16), s.idx.toNat + x.val < 4096 →
    Gives (exec (.storeRegs x) s) (fun t =>
      Gives (exec (.loadRegs x) { t with idx := s.idx, v := v }) (fun u =>
        ∀ r : Reg, r.val ≤ x.val → u.getV r = s.getV r))

/-- Two bytes a bulk store has just written are what the next fetch of their address reads, the first the high byte. -/
def Obligations.StoredBytesAreFetched : Prop :=
  ∀ (s : State) (x r r' : Reg), s.idx.toNat + x.val < 4096 → r'.val = r.val + 1 → r'.val ≤ x.val →
    Gives (exec (.storeRegs x) s) (fun t =>
      State.fetchBytes { t with pc := BitVec.ofNat 16 (s.idx.toNat + r.val) } = .ok [s.getV r, s.getV r'] ∧
      State.nextWord { t with pc := BitVec.ofNat 16 (s.idx.toNat + r.val) } = wordOfBytes (s.getV r) (s.getV r'))

/-! ### Display -/

/-- CLS clears every pixel and sets `changed`, also on a clear grid (the spec's decision D13), and changes nothing else; it is not gated. -/
def Obligations.ClearDisplay : Prop :=
  ∀ s : State, Gives (exec .cls s) (fun t =>
    (∀ x y, t.grid.pixel x y = false) ∧ t.changed = true ∧
    SameBut (fun p => p = .changed ∨ ∃ x y, p = .pixel x y) s t)

/-- A draw that proceeds inverts exactly the pixels the sprite's set bits land on, sets VF to 1 when one of them was set and to 0 otherwise
(the spec's decision D11), sets `changed` when there is one, takes the draw slot under `disp_wait`, and changes nothing else. -/
def Obligations.DrawXorsTheSprite : Prop :=
  ∀ (s : State) (x y : Reg) (n : BitVec 4), s.drawable n → s.gateOpen → s.spriteInMemory n.toNat →
    Gives (exec (.drw x y n) s) (fun t =>
      (∀ px py, s.covers x y n.toNat px py → t.grid.pixel px py = !s.grid.pixel px py) ∧
      ((∃ px py, s.covers x y n.toNat px py ∧ s.grid.pixel px py = true) → t.getV vf = 1#8) ∧
      ((∀ px py, s.covers x y n.toNat px py → s.grid.pixel px py = false) → t.getV vf = 0#8) ∧
      ((∃ px py, s.covers x y n.toNat px py) → t.changed = true) ∧
      ((∀ px py, ¬s.covers x y n.toNat px py) → t.changed = s.changed) ∧
      t.vblank = (if s.cfg.quirks.dispWait then .waitingForDraw else s.vblank) ∧
      SameBut (fun p => p = .reg vf ∨ p = .changed ∨ p = .vblank ∨
        ∃ px py, s.covers x y n.toNat px py ∧ p = .pixel px py) s t)

/-- A draw the display gate rejects sets `pc` back to the draw, leaves `vblank` in WaitingForInterrupt (the spec's decision D14), and changes
nothing else. -/
def Obligations.RejectedDrawRollsBack : Prop :=
  ∀ (s : State) (x y : Reg) (n : BitVec 4), s.drawable n → ¬s.gateOpen → Gives (exec (.drw x y n) s) (fun t =>
    t.pc = s.pc - 2#16 ∧ t.vblank = .waitingForInterrupt ∧ SameBut (fun p => p = .pc ∨ p = .vblank) s t)

/-- DXY0 raises Unmodelled under the policy `refuse`, before the gate (the spec's decision D10); a draw that proceeds raises
AddressOutOfRange of the first sprite row out of memory, on the grid or not (the spec's decision D12). -/
def Obligations.DrawHalts : Prop :=
  ∀ (s : State) (x y : Reg) (n : BitVec 4),
    (¬s.drawable n → Halts (exec (.drw x y n) s) (s.record (.drw x y n) .unmodelled none)) ∧
    (∀ r, s.drawable n → s.gateOpen → r < n.toNat → FirstOutOfRange s.idx.toNat r →
      Halts (exec (.drw x y n) s) (s.record (.drw x y n) .addressOutOfRange (some (s.idx.toNat + r))))

/-- Without the display-wait quirk, drawing the same sprite twice at one place gives every pixel its value back, and the second draw sets VF
to 1 exactly when a pixel the sprite covers was clear before the first (so that the first set it). The coordinate registers are not VF,
which the first draw writes. -/
def Obligations.DrawTwiceRestoresTheGrid : Prop :=
  ∀ (s : State) (x y : Reg) (n : BitVec 4), s.drawable n → s.cfg.quirks.dispWait = false → s.spriteInMemory n.toNat →
    x ≠ vf → y ≠ vf →
    Gives (exec (.drw x y n) s) (fun t => Gives (exec (.drw x y n) t) (fun u =>
      (∀ px py, u.grid.pixel px py = s.grid.pixel px py) ∧
      ((∃ px py, s.covers x y n.toNat px py ∧ s.grid.pixel px py = false) → u.getV vf = 1#8) ∧
      ((∀ px py, s.covers x y n.toNat px py → s.grid.pixel px py = true) → u.getV vf = 0#8)))

/-- Under the display-wait quirk the second draw of a frame is rejected, leaves the grid as the first left it and `pc` at the draw; the frame
boundary then frees the draw slot. -/
def Obligations.OneDrawPerFrame : Prop :=
  ∀ (s : State) (x y x' y' : Reg) (n n' : BitVec 4), s.halt = none → s.cfg.quirks.dispWait = true → s.vblank = .free →
    s.drawable n → s.drawable n' → s.spriteInMemory n.toNat →
    Gives (exec (.drw x y n) s) (fun t => t.pc = s.pc ∧
      Gives (exec (.drw x' y' n') { t with pc := t.pc + 2#16 }) (fun u =>
        u.pc = t.pc ∧ (∀ px py, u.grid.pixel px py = t.grid.pixel px py) ∧ (∀ r, u.getV r = t.getV r) ∧
        Gives (u.perform .frameBoundary) (fun w => w.vblank = .free ∧ w.pc = u.pc)))

/-! ### Timers and keys -/

/-- LD DT, Vx and LD ST, Vx set their timer to V[X], and change nothing else. -/
def Obligations.TimerLoads : Prop :=
  ∀ (s : State) (x : Reg),
    Gives (exec (.ldDtVx x) s) (fun t => t.dt = s.getV x ∧ SameBut (fun p => p = .dt) s t) ∧
    Gives (exec (.ldStVx x) s) (fun t => t.st = s.getV x ∧ SameBut (fun p => p = .st) s t)

/-- LD Vx, K blocks the engine and records X, whatever key the step was given (the spec's decision D18), and changes nothing else. -/
def Obligations.KeyWaitBlocks : Prop :=
  ∀ (s : State) (x : Reg), Gives (exec (.ldVxK x) s) (fun t =>
    t.blocked = true ∧ t.waitReg = x ∧ SameBut (fun p => p = .keyWait) s t)

/-- The key-wait protocol: after LD Vx, K no step changes anything, and the delivery of a key writes it to V[X] and lets the engine run on
at the next instruction. -/
def Obligations.KeyWaitProtocol : Prop :=
  ∀ (s : State) (x k : Reg), s.halt = none → Gives (exec (.ldVxK x) s) (fun t =>
    (∀ key rnd, t.perform (.step key rnd) = .next t) ∧
    Gives (t.perform (.deliverKey k)) (fun u =>
      u.runs ∧ (u.getV x).toNat = k.val ∧ u.pc = s.pc ∧ ∀ r, r ≠ x → u.getV r = s.getV r))

/-! ### Rules about the whole machine -/

/-- Which instructions may change which piece of state, when they do not halt: a register V[r] only an instruction that names it as its
destination, FX65 when it reaches it, and, when V[r] is VF, one that writes a flag; `pc` only RET, JP, CALL, JP V0, a skip taken, which
adds 2, and a rejected DRW, which alone takes back the 2 of the fetch; memory only LD B and LD [I]; pixels and `changed` only CLS and
DRW; the stack only CALL and RET; each timer only its own load; `blocked` and `wait_reg` only LD Vx, K; `vblank` only DRW; I only its own
instructions. None changes the halt record or the configuration. -/
def Obligations.EachPieceOfStateHasItsWriters : Prop :=
  ∀ (i : Instr) (s t : State), exec i s = .next t → t.halt = none →
    (∀ r, t.getV r ≠ s.getV r →
      (∃ nn, i = .ldImm r nn ∨ i = .addImm r nn ∨ i = .rnd r nn) ∨ (∃ y, i = .ldReg r y) ∨ i = .ldVxDt r ∨
      (∃ x, i = .loadRegs x ∧ r.val ≤ x.val) ∨
      (∃ x y, (i = .orReg x y ∨ i = .andReg x y ∨ i = .xorReg x y) ∧ (r = x ∨ (r = vf ∧ s.cfg.quirks.vfReset = true))) ∨
      (∃ x y, (i = .addReg x y ∨ i = .sub x y ∨ i = .shr x y ∨ i = .subn x y ∨ i = .shl x y) ∧ (r = x ∨ r = vf)) ∨
      (∃ x y n, i = .drw x y n ∧ r = vf)) ∧
    (t.pc ≠ s.pc →
      i = .ret ∨ (∃ nnn, i = .jp nnn ∨ i = .call nnn ∨ i = .jpV0 nnn) ∨
      ((∃ x y nn, i = .seImm x nn ∨ i = .sneImm x nn ∨ i = .seReg x y ∨ i = .sneReg x y ∨ i = .skp x ∨ i = .sknp x) ∧
        t.pc = s.pc + 2#16) ∨
      ((∃ x y n, i = .drw x y n) ∧ ¬s.gateOpen ∧ t.pc = s.pc - 2#16)) ∧
    ((∃ a, t.readByte a ≠ s.readByte a) → ∃ x, i = .ldB x ∨ i = .storeRegs x) ∧
    (((∃ px py, t.grid.pixel px py ≠ s.grid.pixel px py) ∨ t.changed ≠ s.changed) → i = .cls ∨ ∃ x y n, i = .drw x y n) ∧
    (t.stack ≠ s.stack → i = .ret ∨ ∃ nnn, i = .call nnn) ∧
    (t.dt ≠ s.dt → ∃ x, i = .ldDtVx x) ∧
    (t.st ≠ s.st → ∃ x, i = .ldStVx x) ∧
    ((t.blocked ≠ s.blocked ∨ t.waitReg ≠ s.waitReg) → ∃ x, i = .ldVxK x) ∧
    (t.vblank ≠ s.vblank → ∃ x y n, i = .drw x y n) ∧
    (t.idx ≠ s.idx → (∃ nnn, i = .ldI nnn) ∨ ∃ x, i = .addI x ∨ i = .ldF x ∨ i = .storeRegs x ∨ i = .loadRegs x) ∧
    t.halt = s.halt ∧ t.cfg = s.cfg

/-- An engine at its idle end, a jump to itself, stays there: a step changes nothing of the engine. The two fields of the model that hold
the step's inputs take them; that the model keeps them, which R141 does not, is its choice (log 4). -/
def Obligations.IdleEngineStaysIdle : Prop :=
  ∀ (s : State) (key : Option Reg) (rnd : Byte), s.idleEnd → Gives (s.perform (.step key rnd)) (fun t =>
    t.idleEnd ∧ SameBut (fun _ => False) { s with key := key, rnd := rnd } t)
end

