-- ==== Sys2Proof/Laws/Decode.lean ====
section
/-! SUPPORT. The fields of a word built from fields, the word built from a word's fields, and the two bytes of a word. -/

namespace Sys2Proof

@[simp] theorem regOf_nibbleOf (r : Reg) : regOf (nibbleOf r) = r := rfl
@[simp] theorem nibbleOf_regOf (b : BitVec 4) : nibbleOf (regOf b) = b := rfl

/-! ### Bits of the forms -/

theorem formNnn_getLsbD (op : BitVec 4) (nnn : BitVec 12) (i : Nat) :
    (formNnn op nnn).getLsbD i = if i < 12 then nnn.getLsbD i else op.getLsbD (i - 12) := by
  refine (BitVec.getLsbD_append (x := op) (y := nnn) (i := i)).trans ?_
  split <;> rfl

theorem formXnn_getLsbD (op : BitVec 4) (x : Reg) (nn : Byte) (i : Nat) :
    (formXnn op x nn).getLsbD i =
      if i < 12 then (if i < 8 then nn.getLsbD i else (nibbleOf x).getLsbD (i - 8)) else op.getLsbD (i - 12) := by
  refine (formNnn_getLsbD op (nibbleOf x ++ nn) i).trans ?_
  rw [BitVec.getLsbD_append (x := nibbleOf x) (y := nn) (i := i)]

theorem formXyn_getLsbD (op : BitVec 4) (x y : Reg) (n : BitVec 4) (i : Nat) :
    (formXyn op x y n).getLsbD i =
      if i < 12 then
        (if i < 8 then (if i < 4 then n.getLsbD i else (nibbleOf y).getLsbD (i - 4)) else (nibbleOf x).getLsbD (i - 8))
      else op.getLsbD (i - 12) := by
  refine (formXnn_getLsbD op x (nibbleOf y ++ n) i).trans ?_
  rw [BitVec.getLsbD_append (x := nibbleOf y) (y := n) (i := i)]

theorem wordOfBytes_getLsbD (hi lo : Byte) (i : Nat) :
    (wordOfBytes hi lo).getLsbD i = if i < 8 then lo.getLsbD i else hi.getLsbD (i - 8) :=
  BitVec.getLsbD_append (x := hi) (y := lo) (i := i)

/-! ### The fields of a form -/

@[simp] theorem formNnn_opField (op : BitVec 4) (nnn : BitVec 12) : opField (formNnn op nnn) = op := by
  apply BitVec.eq_of_getLsbD_eq
  intro i hi
  simp [opField, formNnn_getLsbD, hi]

@[simp] theorem formNnn_nnnField (op : BitVec 4) (nnn : BitVec 12) : nnnField (formNnn op nnn) = nnn := by
  apply BitVec.eq_of_getLsbD_eq
  intro i hi
  simp [nnnField, formNnn_getLsbD, hi]

@[simp] theorem formXnn_opField (op : BitVec 4) (x : Reg) (nn : Byte) : opField (formXnn op x nn) = op :=
  formNnn_opField op (nibbleOf x ++ nn)

@[simp] theorem formXnn_xField (op : BitVec 4) (x : Reg) (nn : Byte) : xField (formXnn op x nn) = x := by
  have : BitVec.extractLsb' 8 4 (formXnn op x nn) = nibbleOf x := by
    apply BitVec.eq_of_getLsbD_eq
    intro i hi
    simp [formXnn_getLsbD, hi, show 8 + i < 12 by omega]
  rw [xField, this, regOf_nibbleOf]

@[simp] theorem formXnn_nnField (op : BitVec 4) (x : Reg) (nn : Byte) : nnField (formXnn op x nn) = nn := by
  apply BitVec.eq_of_getLsbD_eq
  intro i hi
  simp [nnField, formXnn_getLsbD, hi, show i < 12 by omega]

@[simp] theorem formXyn_opField (op : BitVec 4) (x y : Reg) (n : BitVec 4) : opField (formXyn op x y n) = op :=
  formXnn_opField op x (nibbleOf y ++ n)

@[simp] theorem formXyn_xField (op : BitVec 4) (x y : Reg) (n : BitVec 4) : xField (formXyn op x y n) = x :=
  formXnn_xField op x (nibbleOf y ++ n)

@[simp] theorem formXyn_yField (op : BitVec 4) (x y : Reg) (n : BitVec 4) : yField (formXyn op x y n) = y := by
  have : BitVec.extractLsb' 4 4 (formXyn op x y n) = nibbleOf y := by
    apply BitVec.eq_of_getLsbD_eq
    intro i hi
    simp [formXyn_getLsbD, hi, show 4 + i < 12 by omega, show 4 + i < 8 by omega]
  rw [yField, this, regOf_nibbleOf]

@[simp] theorem formXyn_nField (op : BitVec 4) (x y : Reg) (n : BitVec 4) : nField (formXyn op x y n) = n := by
  apply BitVec.eq_of_getLsbD_eq
  intro i hi
  simp [nField, formXyn_getLsbD, hi, show i < 12 by omega, show i < 8 by omega]

/-! ### A word from its fields -/

theorem formNnn_fields (w : Word) : formNnn (opField w) (nnnField w) = w := by
  apply BitVec.eq_of_getLsbD_eq
  intro i hi
  rw [formNnn_getLsbD]
  split
  · simp [nnnField, *]
  · simp [opField, show i - 12 < 4 by omega, show 12 + (i - 12) = i by omega]

theorem formXnn_fields (w : Word) : formXnn (opField w) (xField w) (nnField w) = w := by
  apply BitVec.eq_of_getLsbD_eq
  intro i hi
  rw [formXnn_getLsbD]
  split
  · split
    · simp [nnField, *]
    · simp [xField, show i - 8 < 4 by omega, show 8 + (i - 8) = i by omega]
  · simp [opField, show i - 12 < 4 by omega, show 12 + (i - 12) = i by omega]

theorem formXyn_fields (w : Word) : formXyn (opField w) (xField w) (yField w) (nField w) = w := by
  apply BitVec.eq_of_getLsbD_eq
  intro i hi
  rw [formXyn_getLsbD]
  split
  · split
    · split
      · simp [nField, *]
      · simp [yField, show i - 4 < 4 by omega, show 4 + (i - 4) = i by omega]
    · simp [xField, show i - 8 < 4 by omega, show 8 + (i - 8) = i by omega]
  · simp [opField, show i - 12 < 4 by omega, show 12 + (i - 12) = i by omega]

/-! ### The fields as numbers, and the order of decoding -/

theorem opField_toNat (w : Word) : (opField w).toNat = w.toNat / 4096 := by
  have := w.isLt
  simp [opField, BitVec.extractLsb'_toNat, Nat.shiftRight_eq_div_pow]
  omega

theorem nField_toNat (w : Word) : (nField w).toNat = w.toNat % 16 := by
  simp [nField, BitVec.extractLsb'_toNat]

theorem nnField_toNat (w : Word) : (nnField w).toNat = w.toNat % 256 := by
  simp [nnField, BitVec.extractLsb'_toNat]

/-- A word that is neither fixed word is decoded by its first nibble (30_encoding.md R94). -/
theorem decodeWord_byOp {w : Word} (h1 : w ≠ 0x00E0#16) (h2 : w ≠ 0x00EE#16) : decodeWord w = decodeByOp w := by
  simp [decodeWord, h1, h2]

/-- A word whose first nibble is not 0 is decoded by it (30_encoding.md R94). -/
theorem decodeWord_of_op {w : Word} (h : opField w ≠ 0#4) : decodeWord w = decodeByOp w := by
  apply decodeWord_byOp <;> (rintro rfl; exact h (by decide))

/-! ### The bytes of a word -/

/-- A word is put together again from its two bytes (20_memory.md R64). -/
@[simp] theorem wordOfBytes_bytes (w : Word) : wordOfBytes (highByte w) (lowByte w) = w := by
  apply BitVec.eq_of_getLsbD_eq
  intro i hi
  rw [wordOfBytes_getLsbD]
  split
  · simp [lowByte, *]
  · simp [highByte, show i - 8 < 8 by omega, show 8 + (i - 8) = i by omega]

@[simp] theorem highByte_wordOfBytes (hi lo : Byte) : highByte (wordOfBytes hi lo) = hi := by
  apply BitVec.eq_of_getLsbD_eq
  intro i h
  simp [highByte, wordOfBytes_getLsbD, h]

@[simp] theorem lowByte_wordOfBytes (hi lo : Byte) : lowByte (wordOfBytes hi lo) = lo := by
  apply BitVec.eq_of_getLsbD_eq
  intro i h
  simp [lowByte, wordOfBytes_getLsbD, h]

/-- Decoding two bytes is decoding their word; the bytes after them are given back. -/
theorem decode_ok {hi lo : Byte} {rest : List Byte} {i : Instr} {rest' : List Byte} :
    decode (hi :: lo :: rest) = .ok (i, rest') ↔ decodeWord (wordOfBytes hi lo) = .ok i ∧ rest' = rest := by
  rw [decode]
  generalize decodeWord (wordOfBytes hi lo) = d
  cases d <;> simp [eq_comm]

theorem decode_error {hi lo : Byte} {rest : List Byte} {e : DecodeError} :
    decode (hi :: lo :: rest) = .error e ↔ decodeWord (wordOfBytes hi lo) = .error e := by
  rw [decode]
  generalize decodeWord (wordOfBytes hi lo) = d
  cases d <;> simp

end Sys2Proof
end

