-- ==== Sys2Proof/Laws/Memory.lean ====
section
/-! SUPPORT. Memory as a list of cells: a read after a write, and that every operation keeps the canonical form. -/

namespace Sys2Proof.Machine

variable {d : Nat → Byte}

theorem Memory.read_erase_self (m : List Host.Cell) (a : Nat) : Memory.read d (Memory.erase a m) a = d a := by
  induction m with
  | nil => rfl
  | cons c m ih =>
    obtain ⟨k, b⟩ := c
    by_cases h : k = a
    · simpa [Memory.erase, h] using ih
    · simpa [Memory.erase, h, Memory.read, Ne.symm h] using ih

theorem Memory.read_erase_other (m : List Host.Cell) {a a' : Nat} (h : a' ≠ a) :
    Memory.read d (Memory.erase a m) a' = Memory.read d m a' := by
  induction m with
  | nil => rfl
  | cons c m ih =>
    obtain ⟨k, b⟩ := c
    have ih' := ih
    by_cases hk : k = a
    · subst hk
      simpa [Memory.erase, Memory.read, h] using ih
    · by_cases ha : a' = k
      · simp [Memory.erase, Memory.read, hk, ha]
      · simpa [Memory.erase, Memory.read, hk, ha] using ih'

theorem Memory.read_insert_self (m : List Host.Cell) (a : Nat) (b : Byte) (h : ∀ c ∈ m, c.1 ≠ a) :
    Memory.read d (Memory.insert a b m) a = b := by
  induction m with
  | nil => simp [Memory.insert, Memory.read]
  | cons c m ih =>
    obtain ⟨k, w⟩ := c
    have hk : k ≠ a := h (k, w) (by simp)
    have hm := ih fun c hc => h c (by simp [hc])
    by_cases hlt : a < k
    · simp [Memory.insert, Memory.read, hlt]
    · simpa [Memory.insert, Memory.read, hlt, Ne.symm hk] using hm

theorem Memory.read_insert_other (m : List Host.Cell) {a a' : Nat} (b : Byte) (h : a' ≠ a) :
    Memory.read d (Memory.insert a b m) a' = Memory.read d m a' := by
  induction m with
  | nil => simp [Memory.insert, Memory.read, h]
  | cons c m ih =>
    obtain ⟨k, w⟩ := c
    by_cases hlt : a < k
    · simp [Memory.insert, Memory.read, hlt, h]
    · by_cases ha : a' = k
      · simp [Memory.insert, Memory.read, hlt, ha]
      · simpa [Memory.insert, Memory.read, hlt, ha] using ih

theorem Memory.mem_erase_ne (m : List Host.Cell) (a : Nat) : ∀ c ∈ Memory.erase a m, c.1 ≠ a := by
  intro c hc
  simpa using (List.mem_filter.mp hc).2

/-- A read of the address written gives the byte written. -/
theorem Memory.read_write_self (m : List Host.Cell) (a : Nat) (b : Byte) :
    Memory.read d (Memory.write d m a b) a = b := by
  unfold Memory.write
  split
  · next h => rw [Memory.read_erase_self, h]
  · exact Memory.read_insert_self _ _ _ (Memory.mem_erase_ne m a)

/-- A write leaves every other address alone. -/
theorem Memory.read_write_other (m : List Host.Cell) {a a' : Nat} (b : Byte) (h : a' ≠ a) :
    Memory.read d (Memory.write d m a b) a' = Memory.read d m a' := by
  unfold Memory.write
  split
  · exact Memory.read_erase_other m h
  · rw [Memory.read_insert_other _ _ h, Memory.read_erase_other m h]

/-- What the canonical form says of a list with a head. -/
theorem Memory.wf_cons (k : Nat) (b : Byte) (m : List Host.Cell) :
    Memory.wf d ((k, b) :: m) = true ↔ k < memSize ∧ b ≠ d k ∧ (∀ c ∈ m, k < c.1) ∧ Memory.wf d m = true := by
  simp [Memory.wf, and_assoc, Bool.and_eq_true]

theorem Memory.erase_wf (m : List Host.Cell) (a : Nat) (h : Memory.wf d m = true) :
    Memory.wf d (Memory.erase a m) = true := by
  induction m with
  | nil => rfl
  | cons c m ih =>
    obtain ⟨k, b⟩ := c
    obtain ⟨hk, hb, hlt, hm⟩ := (Memory.wf_cons k b m).mp h
    by_cases hka : k = a
    · simpa [Memory.erase, hka] using ih hm
    · have : Memory.erase a ((k, b) :: m) = (k, b) :: Memory.erase a m := by simp [Memory.erase, hka]
      rw [this, Memory.wf_cons]
      exact ⟨hk, hb, fun c hc => hlt c (List.mem_filter.mp hc).1, ih hm⟩

theorem Memory.mem_insert {a : Nat} {b : Byte} {m : List Host.Cell} {c : Host.Cell} (h : c ∈ Memory.insert a b m) :
    c = (a, b) ∨ c ∈ m := by
  induction m with
  | nil => simpa [Memory.insert] using h
  | cons e m ih =>
    obtain ⟨k, w⟩ := e
    unfold Memory.insert at h
    split at h
    · simpa using h
    · rcases List.mem_cons.mp h with rfl | h
      · simp
      · rcases ih h with rfl | h <;> simp [*]

theorem Memory.insert_wf (m : List Host.Cell) (a : Nat) (b : Byte) (h : Memory.wf d m = true) (ha : a < memSize)
    (hb : b ≠ d a) (hne : ∀ c ∈ m, c.1 ≠ a) : Memory.wf d (Memory.insert a b m) = true := by
  induction m with
  | nil => simp [Memory.insert, Memory.wf, ha, hb]
  | cons c m ih =>
    obtain ⟨k, w⟩ := c
    obtain ⟨hk, hw, hlt, hm⟩ := (Memory.wf_cons k w m).mp h
    have hka : k ≠ a := hne (k, w) (by simp)
    unfold Memory.insert
    split
    · next hak =>
      refine (Memory.wf_cons ..).mpr ⟨ha, hb, ?_, h⟩
      intro c hc
      rcases List.mem_cons.mp hc with rfl | hc
      · exact hak
      · exact lt_trans hak (hlt c hc)
    · next hak =>
      refine (Memory.wf_cons ..).mpr ⟨hk, hw, ?_, ih hm fun c hc => hne c (by simp [hc])⟩
      intro c hc
      rcases Memory.mem_insert hc with rfl | hc
      · exact lt_of_le_of_ne (not_lt.mp hak) hka
      · exact hlt c hc

/-- A write below 4096 keeps the canonical form. -/
theorem Memory.write_wf (m : List Host.Cell) (a : Nat) (b : Byte) (h : Memory.wf d m = true) (ha : a < memSize) :
    Memory.wf d (Memory.write d m a b) = true := by
  unfold Memory.write
  split
  · exact Memory.erase_wf m a h
  · next hb => exact Memory.insert_wf _ _ _ (Memory.erase_wf m a h) ha hb (Memory.mem_erase_ne m a)

end Sys2Proof.Machine
end

