-- ==== Sys2Proof/Laws/State.lean ====
section
/-! SUPPORT. One lemma per field per update of State, true by rfl, and the reads of a byte and of a register after each update. -/

namespace Sys2Proof.Machine

variable (s : State)

/-! ### setV -/

@[simp] theorem State.setV_mem (r : Reg) (b : Byte) : (s.setV r b).mem = s.mem := rfl
@[simp] theorem State.setV_v (r : Reg) (b : Byte) : (s.setV r b).v = s.v.set r.val b := rfl
@[simp] theorem State.setV_idx (r : Reg) (b : Byte) : (s.setV r b).idx = s.idx := rfl
@[simp] theorem State.setV_pc (r : Reg) (b : Byte) : (s.setV r b).pc = s.pc := rfl
@[simp] theorem State.setV_stack (r : Reg) (b : Byte) : (s.setV r b).stack = s.stack := rfl
@[simp] theorem State.setV_dt (r : Reg) (b : Byte) : (s.setV r b).dt = s.dt := rfl
@[simp] theorem State.setV_st (r : Reg) (b : Byte) : (s.setV r b).st = s.st := rfl
@[simp] theorem State.setV_grid (r : Reg) (b : Byte) : (s.setV r b).grid = s.grid := rfl
@[simp] theorem State.setV_changed (r : Reg) (b : Byte) : (s.setV r b).changed = s.changed := rfl
@[simp] theorem State.setV_blocked (r : Reg) (b : Byte) : (s.setV r b).blocked = s.blocked := rfl
@[simp] theorem State.setV_waitReg (r : Reg) (b : Byte) : (s.setV r b).waitReg = s.waitReg := rfl
@[simp] theorem State.setV_vblank (r : Reg) (b : Byte) : (s.setV r b).vblank = s.vblank := rfl
@[simp] theorem State.setV_halt (r : Reg) (b : Byte) : (s.setV r b).halt = s.halt := rfl
@[simp] theorem State.setV_cfg (r : Reg) (b : Byte) : (s.setV r b).cfg = s.cfg := rfl
@[simp] theorem State.setV_schedule (r : Reg) (b : Byte) : (s.setV r b).schedule = s.schedule := rfl
@[simp] theorem State.setV_key (r : Reg) (b : Byte) : (s.setV r b).key = s.key := rfl
@[simp] theorem State.setV_rnd (r : Reg) (b : Byte) : (s.setV r b).rnd = s.rnd := rfl
@[simp] theorem State.setV_draws (r : Reg) (b : Byte) : (s.setV r b).draws = s.draws := rfl
@[simp] theorem State.setV_snapshot (r : Reg) (b : Byte) : (s.setV r b).snapshot = s.snapshot := rfl
@[simp] theorem State.setV_readByte (r : Reg) (b : Byte) (a' : Nat) : (s.setV r b).readByte a' = s.readByte a' := rfl

/-! ### setPc -/

@[simp] theorem State.setPc_mem (a : Word) : (s.setPc a).mem = s.mem := rfl
@[simp] theorem State.setPc_v (a : Word) : (s.setPc a).v = s.v := rfl
@[simp] theorem State.setPc_idx (a : Word) : (s.setPc a).idx = s.idx := rfl
@[simp] theorem State.setPc_pc (a : Word) : (s.setPc a).pc = a := rfl
@[simp] theorem State.setPc_stack (a : Word) : (s.setPc a).stack = s.stack := rfl
@[simp] theorem State.setPc_dt (a : Word) : (s.setPc a).dt = s.dt := rfl
@[simp] theorem State.setPc_st (a : Word) : (s.setPc a).st = s.st := rfl
@[simp] theorem State.setPc_grid (a : Word) : (s.setPc a).grid = s.grid := rfl
@[simp] theorem State.setPc_changed (a : Word) : (s.setPc a).changed = s.changed := rfl
@[simp] theorem State.setPc_blocked (a : Word) : (s.setPc a).blocked = s.blocked := rfl
@[simp] theorem State.setPc_waitReg (a : Word) : (s.setPc a).waitReg = s.waitReg := rfl
@[simp] theorem State.setPc_vblank (a : Word) : (s.setPc a).vblank = s.vblank := rfl
@[simp] theorem State.setPc_halt (a : Word) : (s.setPc a).halt = s.halt := rfl
@[simp] theorem State.setPc_cfg (a : Word) : (s.setPc a).cfg = s.cfg := rfl
@[simp] theorem State.setPc_schedule (a : Word) : (s.setPc a).schedule = s.schedule := rfl
@[simp] theorem State.setPc_key (a : Word) : (s.setPc a).key = s.key := rfl
@[simp] theorem State.setPc_rnd (a : Word) : (s.setPc a).rnd = s.rnd := rfl
@[simp] theorem State.setPc_draws (a : Word) : (s.setPc a).draws = s.draws := rfl
@[simp] theorem State.setPc_snapshot (a : Word) : (s.setPc a).snapshot = s.snapshot := rfl
@[simp] theorem State.setPc_readByte (a : Word) (a' : Nat) : (s.setPc a).readByte a' = s.readByte a' := rfl
@[simp] theorem State.setPc_getV (a : Word) (r' : Reg) : (s.setPc a).getV r' = s.getV r' := rfl

/-! ### setIdx -/

@[simp] theorem State.setIdx_mem (a : Word) : (s.setIdx a).mem = s.mem := rfl
@[simp] theorem State.setIdx_v (a : Word) : (s.setIdx a).v = s.v := rfl
@[simp] theorem State.setIdx_idx (a : Word) : (s.setIdx a).idx = a := rfl
@[simp] theorem State.setIdx_pc (a : Word) : (s.setIdx a).pc = s.pc := rfl
@[simp] theorem State.setIdx_stack (a : Word) : (s.setIdx a).stack = s.stack := rfl
@[simp] theorem State.setIdx_dt (a : Word) : (s.setIdx a).dt = s.dt := rfl
@[simp] theorem State.setIdx_st (a : Word) : (s.setIdx a).st = s.st := rfl
@[simp] theorem State.setIdx_grid (a : Word) : (s.setIdx a).grid = s.grid := rfl
@[simp] theorem State.setIdx_changed (a : Word) : (s.setIdx a).changed = s.changed := rfl
@[simp] theorem State.setIdx_blocked (a : Word) : (s.setIdx a).blocked = s.blocked := rfl
@[simp] theorem State.setIdx_waitReg (a : Word) : (s.setIdx a).waitReg = s.waitReg := rfl
@[simp] theorem State.setIdx_vblank (a : Word) : (s.setIdx a).vblank = s.vblank := rfl
@[simp] theorem State.setIdx_halt (a : Word) : (s.setIdx a).halt = s.halt := rfl
@[simp] theorem State.setIdx_cfg (a : Word) : (s.setIdx a).cfg = s.cfg := rfl
@[simp] theorem State.setIdx_schedule (a : Word) : (s.setIdx a).schedule = s.schedule := rfl
@[simp] theorem State.setIdx_key (a : Word) : (s.setIdx a).key = s.key := rfl
@[simp] theorem State.setIdx_rnd (a : Word) : (s.setIdx a).rnd = s.rnd := rfl
@[simp] theorem State.setIdx_draws (a : Word) : (s.setIdx a).draws = s.draws := rfl
@[simp] theorem State.setIdx_snapshot (a : Word) : (s.setIdx a).snapshot = s.snapshot := rfl
@[simp] theorem State.setIdx_readByte (a : Word) (a' : Nat) : (s.setIdx a).readByte a' = s.readByte a' := rfl
@[simp] theorem State.setIdx_getV (a : Word) (r' : Reg) : (s.setIdx a).getV r' = s.getV r' := rfl

/-! ### writeByte -/

@[simp] theorem State.writeByte_mem (a : Nat) (b : Byte) : (s.writeByte a b).mem = Memory.write (resetByte s.cfg) s.mem a b := rfl
@[simp] theorem State.writeByte_v (a : Nat) (b : Byte) : (s.writeByte a b).v = s.v := rfl
@[simp] theorem State.writeByte_idx (a : Nat) (b : Byte) : (s.writeByte a b).idx = s.idx := rfl
@[simp] theorem State.writeByte_pc (a : Nat) (b : Byte) : (s.writeByte a b).pc = s.pc := rfl
@[simp] theorem State.writeByte_stack (a : Nat) (b : Byte) : (s.writeByte a b).stack = s.stack := rfl
@[simp] theorem State.writeByte_dt (a : Nat) (b : Byte) : (s.writeByte a b).dt = s.dt := rfl
@[simp] theorem State.writeByte_st (a : Nat) (b : Byte) : (s.writeByte a b).st = s.st := rfl
@[simp] theorem State.writeByte_grid (a : Nat) (b : Byte) : (s.writeByte a b).grid = s.grid := rfl
@[simp] theorem State.writeByte_changed (a : Nat) (b : Byte) : (s.writeByte a b).changed = s.changed := rfl
@[simp] theorem State.writeByte_blocked (a : Nat) (b : Byte) : (s.writeByte a b).blocked = s.blocked := rfl
@[simp] theorem State.writeByte_waitReg (a : Nat) (b : Byte) : (s.writeByte a b).waitReg = s.waitReg := rfl
@[simp] theorem State.writeByte_vblank (a : Nat) (b : Byte) : (s.writeByte a b).vblank = s.vblank := rfl
@[simp] theorem State.writeByte_halt (a : Nat) (b : Byte) : (s.writeByte a b).halt = s.halt := rfl
@[simp] theorem State.writeByte_cfg (a : Nat) (b : Byte) : (s.writeByte a b).cfg = s.cfg := rfl
@[simp] theorem State.writeByte_schedule (a : Nat) (b : Byte) : (s.writeByte a b).schedule = s.schedule := rfl
@[simp] theorem State.writeByte_key (a : Nat) (b : Byte) : (s.writeByte a b).key = s.key := rfl
@[simp] theorem State.writeByte_rnd (a : Nat) (b : Byte) : (s.writeByte a b).rnd = s.rnd := rfl
@[simp] theorem State.writeByte_draws (a : Nat) (b : Byte) : (s.writeByte a b).draws = s.draws := rfl
@[simp] theorem State.writeByte_snapshot (a : Nat) (b : Byte) : (s.writeByte a b).snapshot = s.snapshot := rfl
@[simp] theorem State.writeByte_getV (a : Nat) (b : Byte) (r' : Reg) : (s.writeByte a b).getV r' = s.getV r' := rfl

/-! ### raise -/

@[simp] theorem State.raise_mem (w : Word) (e : Raise) : (s.raise w e).mem = s.mem := rfl
@[simp] theorem State.raise_v (w : Word) (e : Raise) : (s.raise w e).v = s.v := rfl
@[simp] theorem State.raise_idx (w : Word) (e : Raise) : (s.raise w e).idx = s.idx := rfl
@[simp] theorem State.raise_pc (w : Word) (e : Raise) : (s.raise w e).pc = s.pc := rfl
@[simp] theorem State.raise_stack (w : Word) (e : Raise) : (s.raise w e).stack = s.stack := rfl
@[simp] theorem State.raise_dt (w : Word) (e : Raise) : (s.raise w e).dt = s.dt := rfl
@[simp] theorem State.raise_st (w : Word) (e : Raise) : (s.raise w e).st = s.st := rfl
@[simp] theorem State.raise_grid (w : Word) (e : Raise) : (s.raise w e).grid = s.grid := rfl
@[simp] theorem State.raise_changed (w : Word) (e : Raise) : (s.raise w e).changed = s.changed := rfl
@[simp] theorem State.raise_blocked (w : Word) (e : Raise) : (s.raise w e).blocked = s.blocked := rfl
@[simp] theorem State.raise_waitReg (w : Word) (e : Raise) : (s.raise w e).waitReg = s.waitReg := rfl
@[simp] theorem State.raise_vblank (w : Word) (e : Raise) : (s.raise w e).vblank = s.vblank := rfl
@[simp] theorem State.raise_halt (w : Word) (e : Raise) : (s.raise w e).halt = some { kind := e.kind, instrAddr := s.instrAddr, word := some w, memAddr := e.memAddr } := rfl
@[simp] theorem State.raise_cfg (w : Word) (e : Raise) : (s.raise w e).cfg = s.cfg := rfl
@[simp] theorem State.raise_schedule (w : Word) (e : Raise) : (s.raise w e).schedule = s.schedule := rfl
@[simp] theorem State.raise_key (w : Word) (e : Raise) : (s.raise w e).key = s.key := rfl
@[simp] theorem State.raise_rnd (w : Word) (e : Raise) : (s.raise w e).rnd = s.rnd := rfl
@[simp] theorem State.raise_draws (w : Word) (e : Raise) : (s.raise w e).draws = s.draws := rfl
@[simp] theorem State.raise_snapshot (w : Word) (e : Raise) : (s.raise w e).snapshot = s.snapshot := rfl
@[simp] theorem State.raise_readByte (w : Word) (e : Raise) (a' : Nat) : (s.raise w e).readByte a' = s.readByte a' := rfl
@[simp] theorem State.raise_getV (w : Word) (e : Raise) (r' : Reg) : (s.raise w e).getV r' = s.getV r' := rfl

/-! ### raiseFetch -/

@[simp] theorem State.raiseFetch_mem (e : Raise) : (s.raiseFetch e).mem = s.mem := rfl
@[simp] theorem State.raiseFetch_v (e : Raise) : (s.raiseFetch e).v = s.v := rfl
@[simp] theorem State.raiseFetch_idx (e : Raise) : (s.raiseFetch e).idx = s.idx := rfl
@[simp] theorem State.raiseFetch_pc (e : Raise) : (s.raiseFetch e).pc = s.pc := rfl
@[simp] theorem State.raiseFetch_stack (e : Raise) : (s.raiseFetch e).stack = s.stack := rfl
@[simp] theorem State.raiseFetch_dt (e : Raise) : (s.raiseFetch e).dt = s.dt := rfl
@[simp] theorem State.raiseFetch_st (e : Raise) : (s.raiseFetch e).st = s.st := rfl
@[simp] theorem State.raiseFetch_grid (e : Raise) : (s.raiseFetch e).grid = s.grid := rfl
@[simp] theorem State.raiseFetch_changed (e : Raise) : (s.raiseFetch e).changed = s.changed := rfl
@[simp] theorem State.raiseFetch_blocked (e : Raise) : (s.raiseFetch e).blocked = s.blocked := rfl
@[simp] theorem State.raiseFetch_waitReg (e : Raise) : (s.raiseFetch e).waitReg = s.waitReg := rfl
@[simp] theorem State.raiseFetch_vblank (e : Raise) : (s.raiseFetch e).vblank = s.vblank := rfl
@[simp] theorem State.raiseFetch_halt (e : Raise) : (s.raiseFetch e).halt = some { kind := e.kind, instrAddr := s.pc, word := none, memAddr := e.memAddr } := rfl
@[simp] theorem State.raiseFetch_cfg (e : Raise) : (s.raiseFetch e).cfg = s.cfg := rfl
@[simp] theorem State.raiseFetch_schedule (e : Raise) : (s.raiseFetch e).schedule = s.schedule := rfl
@[simp] theorem State.raiseFetch_key (e : Raise) : (s.raiseFetch e).key = s.key := rfl
@[simp] theorem State.raiseFetch_rnd (e : Raise) : (s.raiseFetch e).rnd = s.rnd := rfl
@[simp] theorem State.raiseFetch_draws (e : Raise) : (s.raiseFetch e).draws = s.draws := rfl
@[simp] theorem State.raiseFetch_snapshot (e : Raise) : (s.raiseFetch e).snapshot = s.snapshot := rfl
@[simp] theorem State.raiseFetch_readByte (e : Raise) (a' : Nat) : (s.raiseFetch e).readByte a' = s.readByte a' := rfl
@[simp] theorem State.raiseFetch_getV (e : Raise) (r' : Reg) : (s.raiseFetch e).getV r' = s.getV r' := rfl

/-! ### Reads after writes -/

@[simp] theorem State.writeByte_readByte_self (a : Nat) (b : Byte) : (s.writeByte a b).readByte a = b :=
  Memory.read_write_self _ _ _

theorem State.writeByte_readByte_other {a a' : Nat} (b : Byte) (h : a' ≠ a) :
    (s.writeByte a b).readByte a' = s.readByte a' :=
  Memory.read_write_other _ _ h

@[simp] theorem State.setV_getV_self (r : Reg) (b : Byte) : (s.setV r b).getV r = b := by
  simp [State.getV]

theorem State.setV_getV_other {r r' : Reg} (b : Byte) (h : r' ≠ r) : (s.setV r b).getV r' = s.getV r' := by
  have : r.val ≠ r'.val := fun e => h (Fin.ext e.symm)
  simp [State.getV, this]

/-- A register after a write, in one equation. -/
theorem State.setV_getV (r r' : Reg) (b : Byte) : (s.setV r b).getV r' = if r' = r then b else s.getV r' := by
  by_cases h : r' = r
  · subst h; simp
  · simp [h, State.setV_getV_other s b h]

/-- The flag is written last: it wins when the result's register is VF (10_state.md R21). -/
theorem State.setWithFlag_getV (r r' : Reg) (b f : Byte) :
    (s.setWithFlag r b f).getV r' = if r' = vf then f else if r' = r then b else s.getV r' := by
  simp [State.setWithFlag, State.setFlag, State.setV_getV]

end Sys2Proof.Machine
end

