-- ==== Sys2Proof/Laws/Ops.lean ====
section
/-! SUPPORT. One lemma per shared operation that says everything it can do. -/

namespace Sys2Proof.Machine

variable (s : State)

/-! ### Runs of bytes -/

@[simp] theorem resetByte_high (c : Config) {a : Nat} (h : 80 ≤ a) : resetByte c a = 0#8 := by
  simp [resetByte, Nat.not_lt.mpr h]

@[simp] theorem outOfRange_kind (a : Nat) : (outOfRange a).kind = .addressOutOfRange := rfl
@[simp] theorem outOfRange_memAddr (a : Nat) : (outOfRange a).memAddr = some a := rfl

/-- A run of reads: all the bytes, or the raise of its first address out of range. -/
theorem State.readBytes_eq (a n : Nat) :
    s.readBytes a n = if n = 0 ∨ a + n ≤ memSize then .ok ((List.range n).map fun k => s.readByte (a + k))
      else .error (outOfRange (max a memSize)) := by
  induction n generalizing a with
  | zero => simp [State.readBytes]
  | succ n ih =>
    rw [State.readBytes, State.memRead, ih]
    by_cases ha : a < memSize
    · rw [if_pos ha]
      by_cases hn : a + (n + 1) ≤ memSize
      · rw [if_pos (by omega), if_pos (by omega)]
        simp [List.range_succ_eq_map, Function.comp_def, Nat.add_assoc, Nat.add_comm 1]
      · rw [if_neg (by omega), if_neg (by omega), show max (a + 1) memSize = max a memSize by omega]
    · rw [if_neg ha, if_neg (c := n + 1 = 0 ∨ a + (n + 1) ≤ memSize) (by omega), show max a memSize = a by omega]

/-- A run of reads that does not raise gives as many bytes as were asked for. -/
theorem State.readBytes_length {a n : Nat} {bs : List Byte} (h : s.readBytes a n = .ok bs) : bs.length = n := by
  rw [State.readBytes_eq] at h
  split at h
  · cases h; simp
  · cases h

/-- A run of writes: all the bytes placed, or the raise of its first address out of range. -/
theorem State.writeBytes_eq (a : Nat) (bs : List Byte) :
    s.writeBytes a bs = if bs = [] ∨ a + bs.length ≤ memSize then .ok (s.placeBytes a bs)
      else .error (outOfRange (max a memSize)) := by
  induction bs generalizing s a with
  | nil => simp [State.writeBytes, State.placeBytes]
  | cons b bs ih =>
    rw [State.writeBytes, State.memWrite, List.length_cons]
    by_cases ha : a < memSize
    · rw [if_pos ha]
      simp only [ih]
      by_cases hn : a + (bs.length + 1) ≤ memSize
      · rw [if_pos (.inr (by omega)), if_pos (.inr hn)]
        rfl
      · have hbs : bs ≠ [] := by rintro rfl; simp at hn; omega
        rw [if_neg (by simp [hbs]; omega), if_neg (by simp; omega), show max (a + 1) memSize = max a memSize by omega]
    · rw [if_neg ha, if_neg (by simp; omega), show max a memSize = a by omega]

/-- Placing bytes changes memory alone. -/
theorem State.placeBytes_eq (a : Nat) (bs : List Byte) :
    s.placeBytes a bs = { s with mem := (s.placeBytes a bs).mem } := by
  induction bs generalizing s a with
  | nil => rfl
  | cons b bs ih => rw [State.placeBytes, ih]; rfl

@[simp] theorem State.placeBytes_getV (a : Nat) (bs : List Byte) (r : Reg) : (s.placeBytes a bs).getV r = s.getV r := by
  rw [State.placeBytes_eq]; rfl
@[simp] theorem State.placeBytes_v (a : Nat) (bs : List Byte) : (s.placeBytes a bs).v = s.v := by
  rw [State.placeBytes_eq]
@[simp] theorem State.placeBytes_idx (a : Nat) (bs : List Byte) : (s.placeBytes a bs).idx = s.idx := by
  rw [State.placeBytes_eq]
@[simp] theorem State.placeBytes_pc (a : Nat) (bs : List Byte) : (s.placeBytes a bs).pc = s.pc := by
  rw [State.placeBytes_eq]
@[simp] theorem State.placeBytes_stack (a : Nat) (bs : List Byte) : (s.placeBytes a bs).stack = s.stack := by
  rw [State.placeBytes_eq]
@[simp] theorem State.placeBytes_dt (a : Nat) (bs : List Byte) : (s.placeBytes a bs).dt = s.dt := by
  rw [State.placeBytes_eq]
@[simp] theorem State.placeBytes_st (a : Nat) (bs : List Byte) : (s.placeBytes a bs).st = s.st := by
  rw [State.placeBytes_eq]
@[simp] theorem State.placeBytes_grid (a : Nat) (bs : List Byte) : (s.placeBytes a bs).grid = s.grid := by
  rw [State.placeBytes_eq]
@[simp] theorem State.placeBytes_changed (a : Nat) (bs : List Byte) : (s.placeBytes a bs).changed = s.changed := by
  rw [State.placeBytes_eq]
@[simp] theorem State.placeBytes_blocked (a : Nat) (bs : List Byte) : (s.placeBytes a bs).blocked = s.blocked := by
  rw [State.placeBytes_eq]
@[simp] theorem State.placeBytes_waitReg (a : Nat) (bs : List Byte) : (s.placeBytes a bs).waitReg = s.waitReg := by
  rw [State.placeBytes_eq]
@[simp] theorem State.placeBytes_vblank (a : Nat) (bs : List Byte) : (s.placeBytes a bs).vblank = s.vblank := by
  rw [State.placeBytes_eq]
@[simp] theorem State.placeBytes_halt (a : Nat) (bs : List Byte) : (s.placeBytes a bs).halt = s.halt := by
  rw [State.placeBytes_eq]
@[simp] theorem State.placeBytes_cfg (a : Nat) (bs : List Byte) : (s.placeBytes a bs).cfg = s.cfg := by
  rw [State.placeBytes_eq]
@[simp] theorem State.placeBytes_schedule (a : Nat) (bs : List Byte) : (s.placeBytes a bs).schedule = s.schedule := by
  rw [State.placeBytes_eq]
@[simp] theorem State.placeBytes_key (a : Nat) (bs : List Byte) : (s.placeBytes a bs).key = s.key := by
  rw [State.placeBytes_eq]
@[simp] theorem State.placeBytes_rnd (a : Nat) (bs : List Byte) : (s.placeBytes a bs).rnd = s.rnd := by
  rw [State.placeBytes_eq]
@[simp] theorem State.placeBytes_draws (a : Nat) (bs : List Byte) : (s.placeBytes a bs).draws = s.draws := by
  rw [State.placeBytes_eq]
@[simp] theorem State.placeBytes_snapshot (a : Nat) (bs : List Byte) : (s.placeBytes a bs).snapshot = s.snapshot := by
  rw [State.placeBytes_eq]

/-- Placing bytes leaves every address outside them alone. -/
theorem State.placeBytes_readByte_outside (a : Nat) (bs : List Byte) {a' : Nat} (h : a' < a ∨ a + bs.length ≤ a') :
    (s.placeBytes a bs).readByte a' = s.readByte a' := by
  induction bs generalizing s a with
  | nil => rfl
  | cons b bs ih =>
    rw [List.length_cons] at h
    rw [State.placeBytes, ih _ _ (by omega), State.writeByte_readByte_other s b (by omega)]

/-- The bytes placed are read back. -/
theorem State.placeBytes_readByte_inside (a : Nat) (bs : List Byte) (k : Nat) (h : k < bs.length) :
    (s.placeBytes a bs).readByte (a + k) = bs[k] := by
  induction bs generalizing s a k with
  | nil => simp at h
  | cons b bs ih =>
    cases k with
    | zero =>
      rw [State.placeBytes, State.placeBytes_readByte_outside _ _ _ (by omega)]
      simp
    | succ k =>
      rw [State.placeBytes, show a + (k + 1) = a + 1 + k by omega, ih _ _ _ (by simpa using h)]
      simp

/-- Placing bytes below 4096 keeps memory's canonical form. -/
theorem State.placeBytes_wf (a : Nat) (bs : List Byte) (h : Memory.wf (resetByte s.cfg) s.mem = true)
    (hn : a + bs.length ≤ memSize) : Memory.wf (resetByte s.cfg) (s.placeBytes a bs).mem = true := by
  induction bs generalizing s a with
  | nil => exact h
  | cons b bs ih =>
    rw [List.length_cons] at hn
    exact ih (s.writeByte a b) (a + 1) (Memory.write_wf _ _ _ h (by omega)) (by omega)

/-! ### Registers -/

@[simp] theorem State.regRun_length (x : Reg) : (s.regRun x).length = runLength x := by
  have := x.isLt
  simp only [State.regRun, runLength, List.length_take, Vector.length_toList]
  omega

theorem State.regRun_get (x : Reg) (k : Nat) (h : k < (s.regRun x).length) (hk : k < 16) :
    (s.regRun x)[k] = s.getV ⟨k, hk⟩ := by
  simp [State.regRun, State.getV]

/-- The registers after a run of loads from register `n` on. -/
theorem loadRegsFrom_get (n : Nat) (bs : List Byte) (v : Vector Byte 16) (j : Nat) (hj : j < 16) :
    (loadRegsFrom n bs v)[j] = if h : n ≤ j ∧ j - n < bs.length then bs[j - n]'h.2 else v[j] := by
  induction bs generalizing n v with
  | nil => simp [loadRegsFrom]
  | cons b bs ih =>
    rw [loadRegsFrom, ih]
    by_cases h1 : n + 1 ≤ j ∧ j - (n + 1) < bs.length
    · have h2 : n ≤ j ∧ j - n < (b :: bs).length := by rw [List.length_cons]; omega
      rw [dif_pos h1, dif_pos h2]
      simp only [show j - n = (j - (n + 1)) + 1 by omega, List.getElem_cons_succ]
    · rw [dif_neg h1]
      by_cases h2 : n = j
      · subst h2
        simp
      · rw [dif_neg (by rw [List.length_cons]; omega), Vector.getElem_setIfInBounds_ne hj h2]

/-! ### Program counter, call stack, index register -/

/-- A skip writes `pc` and nothing else. -/
theorem State.skipIf_eq (c : Bool) : s.skipIf c = s.setPc (if c then s.pc + 2#16 else s.pc) := by
  cases c <;> rfl

/-- A push: the address on top, or StackOverflow of a full stack. -/
theorem State.push_ok {a : Word} {t : State} :
    s.push a = .ok t ↔ s.stack.length ≠ s.cfg.stackDepth ∧ t = { s with stack := a :: s.stack } := by
  unfold State.push
  split
  · simp [*]
  · next h => simpa [h] using eq_comm

/-- A pop: the top and the rest, or StackUnderflow of an empty stack. -/
theorem State.pop_ok {a : Word} {t : State} :
    s.pop = .ok (a, t) ↔ ∃ rest, s.stack = a :: rest ∧ t = { s with stack := rest } := by
  unfold State.pop
  cases h : s.stack <;> simp [eq_comm]

/-- An index addition writes the index register alone. -/
theorem State.indexAdd_ok {n : Nat} {t : State} (h : s.indexAdd n = .ok t) :
    t = s.setIdx (BitVec.ofNat 16 (s.idx.toNat + n)) ∧ (s.idx.toNat + n ≤ 0xFFFF ∨ s.cfg.iOverflow = .wrap) := by
  unfold State.indexAdd at h
  split at h
  · next hle => exact ⟨by simpa using h.symm, .inl hle⟩
  · split at h
    · cases h
    · next hw => exact ⟨by simpa using h.symm, .inr hw⟩

/-- An index addition of a sum that fits. -/
theorem State.indexAdd_fits {n : Nat} (h : s.idx.toNat + n ≤ 0xFFFF) :
    s.indexAdd n = .ok (s.setIdx (BitVec.ofNat 16 (s.idx.toNat + n))) := by
  simp [State.indexAdd, h]

/-- After a transfer whose last address is below 4096, the increment does not overflow: `I` is advanced or kept. -/
theorem State.memIncrement_fits (x : Reg) (h : s.idx.toNat + runLength x ≤ memSize) :
    s.memIncrement x =
      .ok (s.setIdx (if s.cfg.quirks.memInc then BitVec.ofNat 16 (s.idx.toNat + runLength x) else s.idx)) := by
  have h1 : s.idx.toNat + runLength x ≤ 0xFFFF := by unfold memSize at h; omega
  unfold State.memIncrement
  split <;> simp [State.indexAdd_fits, *]
  rfl

/-! ### Flags -/

theorem flagByte_toNat (c : Bool) : (flagByte c).toNat = if c then 1 else 0 := by cases c <;> rfl

/-- The logical-flag-reset quirk writes VF or nothing. -/
theorem State.logicalFlagReset_eq :
    s.logicalFlagReset = if s.cfg.quirks.vfReset then s.setV vf 0#8 else s := rfl

/-! ### The grid -/

@[simp] theorem clearGrid_pixel (x : Fin 64) (y : Fin 32) : Grid.pixel clearGrid x y = false := by
  simp [Grid.pixel, clearGrid]

/-- A toggle inverts its pixel and no other. -/
theorem Grid.toggle_pixel (g : Grid) (x x' : Fin 64) (y y' : Fin 32) :
    (g.toggle x y).pixel x' y' = if x' = x ∧ y' = y then !g.pixel x' y' else g.pixel x' y' := by
  obtain ⟨x, hx⟩ := x; obtain ⟨y, hy⟩ := y; obtain ⟨x', hx'⟩ := x'; obtain ⟨y', hy'⟩ := y'
  by_cases h : x' = x
  · subst h
    by_cases h2 : y' = y
    · subst h2; simp [Grid.pixel, Grid.toggle]
    · simp [Grid.pixel, Grid.toggle, h2, Ne.symm h2]
  · simp [Grid.pixel, Grid.toggle, h, Ne.symm h]

/-! ### Fatal errors -/

/-- The end of an instruction is always a next state: its result, or the entry into its fatal error. -/
theorem State.conclude_next {w : Word} {r : Except Raise State} {t : State} :
    s.conclude w r = .next t ↔ r = .ok t ∨ ∃ e, r = .error e ∧ t = s.raise w e := by
  cases r <;> simp [State.conclude, eq_comm]

@[simp] theorem State.conclude_ok (w : Word) (t : State) : s.conclude w (.ok t) = .next t := rfl
@[simp] theorem State.conclude_error (w : Word) (e : Raise) : s.conclude w (.error e) = .next (s.raise w e) := rfl

end Sys2Proof.Machine
end

