-- ==== Sys2Proof/Laws/Draw.lean ====
section
/-! SUPPORT. What drawing a sprite does to the grid: it inverts the pixels the sprite's set bits land on, no pixel twice. -/

namespace Sys2Proof.Machine

/-- `b'` is `b` with the pixels of `H` inverted, the collision and the changed flag as they come of that. -/
structure BlitSpec (H : Fin 64 → Fin 32 → Prop) (b b' : Blit) : Prop where
  hit      : ∀ x y, H x y → b'.grid.pixel x y = !b.grid.pixel x y
  miss     : ∀ x y, ¬H x y → b'.grid.pixel x y = b.grid.pixel x y
  collided : b'.collided = true ↔ b.collided = true ∨ ∃ x y, H x y ∧ b.grid.pixel x y = true
  changed  : b'.changed = true ↔ b.changed = true ∨ ∃ x y, H x y

theorem BlitSpec.refl {H : Fin 64 → Fin 32 → Prop} (b : Blit) (h : ∀ x y, ¬H x y) : BlitSpec H b b where
  hit x y hh := absurd hh (h x y)
  miss _ _ _ := rfl
  collided := ⟨.inl, fun e => e.elim id fun ⟨x, y, hh, _⟩ => absurd hh (h x y)⟩
  changed := ⟨.inl, fun e => e.elim id fun ⟨x, y, hh⟩ => absurd hh (h x y)⟩

/-- Two draws of pixels that have none in common are the draw of them all. -/
theorem BlitSpec.trans {H1 H2 H : Fin 64 → Fin 32 → Prop} {b b1 b2 : Blit} (s1 : BlitSpec H1 b b1) (s2 : BlitSpec H2 b1 b2)
    (hdisj : ∀ x y, H1 x y → ¬H2 x y) (hH : ∀ x y, H x y ↔ H1 x y ∨ H2 x y) : BlitSpec H b b2 where
  hit x y hh := by
    rcases (hH x y).mp hh with h | h
    · rw [s2.miss x y (hdisj x y h), s1.hit x y h]
    · rw [s2.hit x y h, s1.miss x y fun h1 => hdisj x y h1 h]
  miss x y hh := by
    rw [hH] at hh
    rw [s2.miss x y (fun h => hh (.inr h)), s1.miss x y fun h => hh (.inl h)]
  collided := by
    rw [s2.collided, s1.collided, or_assoc]
    refine or_congr_right ⟨?_, ?_⟩
    · rintro (⟨x, y, h, hp⟩ | ⟨x, y, h, hp⟩)
      · exact ⟨x, y, (hH x y).mpr (.inl h), hp⟩
      · exact ⟨x, y, (hH x y).mpr (.inr h), by rwa [s1.miss x y fun h1 => hdisj x y h1 h] at hp⟩
    · rintro ⟨x, y, h, hp⟩
      rcases (hH x y).mp h with h | h
      · exact .inl ⟨x, y, h, hp⟩
      · exact .inr ⟨x, y, h, by rwa [s1.miss x y fun h1 => hdisj x y h1 h]⟩
  changed := by
    rw [s2.changed, s1.changed, or_assoc]
    simp only [hH, exists_or]

theorem blitPixel_spec (wrap : Bool) (px py : Nat) (b : Blit) :
    BlitSpec (fun x y => place wrap px py = some (x, y)) b (blitPixel wrap px py b) := by
  unfold blitPixel
  cases h : place wrap px py with
  | none => exact BlitSpec.refl b (by simp)
  | some p =>
    obtain ⟨x, y⟩ := p
    constructor
    · intro x' y' e; cases e; simp [Grid.toggle_pixel]
    · intro x' y' e
      have : ¬(x' = x ∧ y' = y) := by rintro ⟨rfl, rfl⟩; exact e rfl
      simp [Grid.toggle_pixel, this]
    · simp only [Bool.or_eq_true]
      refine or_congr_right ⟨fun hp => ⟨x, y, rfl, hp⟩, ?_⟩
      rintro ⟨x', y', e, hp⟩
      cases e; exact hp
    · simp only [true_iff]
      exact .inr ⟨x, y, rfl⟩

/-- Where a point is placed (44_display.md R235). -/
theorem place_eq_some (wrap : Bool) (px py : Nat) (x : Fin 64) (y : Fin 32) :
    place wrap px py = some (x, y) ↔
      (if wrap then x.val = px % 64 ∧ y.val = py % 32 else x.val = px ∧ y.val = py) := by
  obtain ⟨x, hx⟩ := x; obtain ⟨y, hy⟩ := y
  unfold place
  cases wrap
  · by_cases h : px < 64 ∧ py < 32
    · simp [h, eq_comm]
    · simp only [h, dite_false, Bool.false_eq_true, if_false]
      constructor
      · intro e; simp at e
      · rintro ⟨rfl, rfl⟩; exact absurd ⟨hx, hy⟩ h
  · simp [eq_comm]

/-- Two points less than 64 apart in one row are not placed on one pixel. -/
theorem place_inj_column {wrap : Bool} {px px' py : Nat} {x : Fin 64} {y : Fin 32} (h : place wrap px py = some (x, y))
    (h' : place wrap px' py = some (x, y)) (hd : px < px' + 64) (hd' : px' < px + 64) : px = px' := by
  rw [place_eq_some] at h h'
  cases wrap <;> simp at h h' <;> omega

/-- Two points in rows less than 32 apart are not placed on one pixel. -/
theorem place_inj_row {wrap : Bool} {px px' py py' : Nat} {x : Fin 64} {y : Fin 32} (h : place wrap px py = some (x, y))
    (h' : place wrap px' py' = some (x, y)) (hd : py < py' + 32) (hd' : py' < py + 32) : py = py' := by
  rw [place_eq_some] at h h'
  cases wrap <;> simp at h h' <;> omega

theorem blitColumns_spec (wrap : Bool) (x0 py : Nat) (row : Byte) (k c : Nat) (b : Blit) (hk : k ≤ 64) :
    BlitSpec (fun x y => ∃ c', c ≤ c' ∧ c' < c + k ∧ spriteBit row c' = true ∧ place wrap (x0 + c') py = some (x, y)) b
      (blitColumns wrap x0 py row k c b) := by
  induction k generalizing c b with
  | zero => exact BlitSpec.refl b (by rintro x y ⟨c', _⟩; omega)
  | succ k ih =>
    refine BlitSpec.trans (H1 := fun x y => spriteBit row c = true ∧ place wrap (x0 + c) py = some (x, y)) ?_
      (ih (c + 1) _ (by omega)) ?_ ?_
    · by_cases hb : spriteBit row c = true
      · simpa [hb] using blitPixel_spec wrap (x0 + c) py b
      · simpa [hb] using BlitSpec.refl b (by simp)
    · rintro x y ⟨_, h⟩ ⟨c', h1, h2, _, h'⟩
      have := place_inj_column h h' (by omega) (by omega)
      omega
    · intro x y
      constructor
      · rintro ⟨c', h1, h2, h3, h4⟩
        rcases Nat.eq_or_lt_of_le h1 with rfl | h1
        · exact .inl ⟨h3, h4⟩
        · exact .inr ⟨c', h1, by omega, h3, h4⟩
      · rintro (⟨h3, h4⟩ | ⟨c', h1, h2, h3, h4⟩)
        · exact ⟨c, le_refl _, by omega, h3, h4⟩
        · exact ⟨c', by omega, by omega, h3, h4⟩

theorem blitRows_spec (wrap : Bool) (x0 py : Nat) (rows : List Byte) (b : Blit) (hn : rows.length ≤ 32) :
    BlitSpec (fun x y => ∃ r, ∃ h : r < rows.length, ∃ c, c < 8 ∧ spriteBit rows[r] c = true ∧
      place wrap (x0 + c) (py + r) = some (x, y)) b (blitRows wrap x0 py rows b) := by
  induction rows generalizing py b with
  | nil => exact BlitSpec.refl b (by rintro x y ⟨r, h, _⟩; simp at h)
  | cons row rows ih =>
    rw [List.length_cons] at hn
    refine BlitSpec.trans (blitColumns_spec wrap x0 py row 8 0 b (by omega)) (ih (py + 1) _ (by omega)) ?_ ?_
    · rintro x y ⟨c, _, _, _, h⟩ ⟨r, hr, c', _, _, h'⟩
      have := place_inj_row h h' (by omega) (by omega)
      omega
    · intro x y
      constructor
      · rintro ⟨r, hr, c, h1, h2, h3⟩
        cases r with
        | zero => exact .inl ⟨c, by omega, by omega, h2, h3⟩
        | succ r =>
          exact .inr ⟨r, by simpa using hr, c, h1, h2, by rwa [show py + 1 + r = py + (r + 1) by omega]⟩
      · rintro (⟨c, _, h1, h2, h3⟩ | ⟨r, hr, c, h1, h2, h3⟩)
        · exact ⟨0, by simp, c, by omega, h2, h3⟩
        · exact ⟨r + 1, by simpa using hr, c, h1, h2, by rwa [show py + (r + 1) = py + 1 + r by omega]⟩

/-- What a draw from the state `s` with the sprite's bytes `rows` does to the grid. -/
theorem State.blit_spec (s : State) (x y : Reg) (rows : List Byte) (hn : rows.length ≤ 32) :
    BlitSpec (fun px py => ∃ r, ∃ h : r < rows.length, ∃ c, c < 8 ∧ spriteBit rows[r] c = true ∧
        place s.cfg.quirks.wrap (s.startColumn x + c) (s.startRow y + r) = some (px, py))
      { grid := s.grid, collided := false, changed := s.changed } (s.blit x y rows) :=
  blitRows_spec _ _ _ _ _ hn

/-- The bytes of a sprite of `n` rows at the index register. -/
def State.spriteRows (s : State) (n : Nat) : List Byte := (List.range n).map fun k => s.readByte (s.idx.toNat + k)

@[simp] theorem State.spriteRows_length (s : State) (n : Nat) : (s.spriteRows n).length = n := by simp [State.spriteRows]

theorem State.spriteRows_get (s : State) (n r : Nat) (h : r < (s.spriteRows n).length) :
    (s.spriteRows n)[r] = s.readByte (s.idx.toNat + r) := by simp [State.spriteRows]

/-- A draw that proceeds: its rows read and the sprite drawn, or the raise of its first row out of range. -/
theorem State.draw_eq (s : State) (x y : Reg) (n : BitVec 4) :
    s.draw x y n = if n.toNat = 0 ∨ s.idx.toNat + n.toNat ≤ memSize then .ok (s.drawRows x y (s.spriteRows n.toNat))
      else .error (outOfRange (max s.idx.toNat memSize)) := by
  rw [State.draw, State.readBytes_eq]
  by_cases h : n.toNat = 0 ∨ s.idx.toNat + n.toNat ≤ memSize
  · rw [if_pos h, if_pos h]; rfl
  · rw [if_neg h, if_neg h]

@[simp] theorem State.startColumn_toNat (s : State) (x : Reg) : s.startColumn x = (s.getV x).toNat % 64 := by
  have : (63#8).toNat = 2 ^ 6 - 1 := by decide
  simp only [State.startColumn, BitVec.toNat_and, this, Nat.and_two_pow_sub_one_eq_mod]

@[simp] theorem State.startRow_toNat (s : State) (y : Reg) : s.startRow y = (s.getV y).toNat % 32 := by
  have : (31#8).toNat = 2 ^ 5 - 1 := by decide
  simp only [State.startRow, BitVec.toNat_and, this, Nat.and_two_pow_sub_one_eq_mod]

end Sys2Proof.Machine
end

