-- ==== Sys2Proof/Laws/Frames.lean ====
section
/-! SUPPORT. Frames of the named updates, and that frames compose: an instruction's frame is put together from its updates'. -/

namespace Sys2Proof.Machine

variable {P : Piece → Prop} {s t u : State}

theorem SameBut.refl (P : Piece → Prop) (s : State) : SameBut P s s := by
  constructor <;> intros <;> simp

theorem SameBut.trans (h1 : SameBut P s t) (h2 : SameBut P t u) : SameBut P s u where
  reg r h := by rw [h2.reg r h, h1.reg r h]
  cell a h := by rw [h2.cell a h, h1.cell a h]
  idx h := by rw [h2.idx h, h1.idx h]
  pc h := by rw [h2.pc h, h1.pc h]
  stack h := by rw [h2.stack h, h1.stack h]
  dt h := by rw [h2.dt h, h1.dt h]
  st h := by rw [h2.st h, h1.st h]
  pixel x y h := by rw [h2.pixel x y h, h1.pixel x y h]
  changed h := by rw [h2.changed h, h1.changed h]
  keyWait h := by rw [(h2.keyWait h).1, (h2.keyWait h).2]; exact h1.keyWait h
  vblank h := by rw [h2.vblank h, h1.vblank h]
  halt h := by rw [h2.halt h, h1.halt h]
  cfg := by rw [h2.cfg, h1.cfg]
  schedule := by rw [h2.schedule, h1.schedule]
  inputs := by rw [h2.inputs.1, h2.inputs.2.1, h2.inputs.2.2]; exact h1.inputs
  snapshot := by rw [h2.snapshot, h1.snapshot]

/-- A frame with more pieces in it is weaker. -/
theorem SameBut.mono {Q : Piece → Prop} (h : SameBut P s t) (hPQ : ∀ p, P p → Q p) : SameBut Q s t where
  reg r hq := h.reg r fun hp => hq (hPQ _ hp)
  cell a hq := h.cell a fun hp => hq (hPQ _ hp)
  idx hq := h.idx fun hp => hq (hPQ _ hp)
  pc hq := h.pc fun hp => hq (hPQ _ hp)
  stack hq := h.stack fun hp => hq (hPQ _ hp)
  dt hq := h.dt fun hp => hq (hPQ _ hp)
  st hq := h.st fun hp => hq (hPQ _ hp)
  pixel x y hq := h.pixel x y fun hp => hq (hPQ _ hp)
  changed hq := h.changed fun hp => hq (hPQ _ hp)
  keyWait hq := h.keyWait fun hp => hq (hPQ _ hp)
  vblank hq := h.vblank fun hp => hq (hPQ _ hp)
  halt hq := h.halt fun hp => hq (hPQ _ hp)
  cfg := h.cfg
  schedule := h.schedule
  inputs := h.inputs
  snapshot := h.snapshot

theorem SameBut.setPc (s : State) (a : Word) (h : P .pc) : SameBut P s (s.setPc a) := by
  constructor <;> intros <;> simp_all

theorem SameBut.setIdx (s : State) (a : Word) (h : P .idx) : SameBut P s (s.setIdx a) := by
  constructor <;> intros <;> simp_all

theorem SameBut.setV (s : State) (r : Reg) (b : Byte) (h : P (.reg r)) : SameBut P s (s.setV r b) := by
  constructor
  · intro r' h'
    exact State.setV_getV_other s b (by rintro rfl; exact h' h)
  all_goals intros; simp

theorem SameBut.setWithFlag (s : State) (r : Reg) (b f : Byte) (h : P (.reg r)) (hf : P (.reg vf)) :
    SameBut P s (s.setWithFlag r b f) :=
  (SameBut.setV s r b h).trans (SameBut.setV _ vf f hf)

theorem SameBut.placeBytes (s : State) (a : Nat) (bs : List Byte) (h : ∀ k, k < bs.length → P (.cell (a + k))) :
    SameBut P s (s.placeBytes a bs) := by
  constructor
  case cell =>
    intro a' h'
    apply State.placeBytes_readByte_outside
    by_contra hc
    obtain ⟨k, rfl⟩ := Nat.exists_eq_add_of_le (Nat.le_of_not_lt fun hl => hc (.inl hl))
    exact h' (h k (by omega))
  all_goals intros; simp

/-- The sprite's bits land where `State.covers` says. -/
theorem State.covers_iff (s : State) (x y : Reg) (n : Nat) (px : Fin 64) (py : Fin 32) :
    s.covers x y n px py ↔ ∃ r, ∃ h : r < (s.spriteRows n).length, ∃ c, c < 8 ∧ spriteBit (s.spriteRows n)[r] c = true ∧
      place s.cfg.quirks.wrap (s.startColumn x + c) (s.startRow y + r) = some (px, py) := by
  simp only [State.covers, place_eq_some, State.startColumn_toNat, State.startRow_toNat, State.spriteRows_get,
    State.spriteRows_length, spriteBit]
  constructor
  · rintro ⟨r, c, hr, hc, hb, hp⟩
    exact ⟨r, hr, c, hc, hb, hp⟩
  · rintro ⟨r, hr, c, hc, hb, hp⟩
    exact ⟨r, c, hr, hc, hb, hp⟩

/-- What a draw of the sprite at `I` does to the grid, in the terms of `State.covers`. -/
theorem State.blit_covers (s : State) (x y : Reg) (n : BitVec 4) :
    BlitSpec (fun px py => s.covers x y n.toNat px py) { grid := s.grid, collided := false, changed := s.changed }
      (s.blit x y (s.spriteRows n.toNat)) := by
  have hn := n.isLt
  have h := s.blit_spec x y (s.spriteRows n.toNat) (by rw [State.spriteRows_length]; omega)
  simpa only [State.covers_iff] using h

end Sys2Proof.Machine
end

