-- ==== Sys2Proof/Laws/Step.lean ====
section
/-! SUPPORT. What one step can do: the operation taken, the fetch, and the execution of the fetched word. -/

namespace Sys2Proof.Machine

variable (s : State)

/-- A fetch: the two bytes at `pc`, or the raise of the first out of range. -/
theorem State.fetchBytes_eq :
    s.fetchBytes = if s.pc.toNat + 2 ≤ memSize then .ok [s.readByte s.pc.toNat, s.readByte (s.pc.toNat + 1)]
      else .error (outOfRange (max s.pc.toNat memSize)) := by
  rw [State.fetchBytes, State.readBytes_eq]
  simp [List.range_succ]

/-- A fetch out of range ends the session; `pc` is not advanced. -/
theorem State.fetchExecute_outOfRange (h : ¬s.pc.toNat + 2 ≤ memSize) :
    s.fetchExecute = .next (s.raiseFetch (outOfRange (max s.pc.toNat memSize))) := by
  rw [State.fetchExecute, State.fetchBytes_eq, if_neg h]

/-- A fetched word that decodes is executed with `pc` advanced. -/
theorem State.fetchExecute_ok (h : s.pc.toNat + 2 ≤ memSize) {i : Instr} (hi : decodeWord s.nextWord = .ok i) :
    s.fetchExecute = exec i (s.setPc (s.pc + 2#16)) := by
  rw [State.fetchExecute, State.fetchBytes_eq, if_pos h]
  simp only [State.executeBytes]
  rw [decode_ok.mpr ⟨hi, rfl⟩]

/-- A fetched word that does not decode ends the session. -/
theorem State.fetchExecute_illegal (h : s.pc.toNat + 2 ≤ memSize) {e : DecodeError} (he : decodeWord s.nextWord = .error e) :
    s.fetchExecute =
      .next ((s.setPc (s.pc + 2#16)).raise s.nextWord { kind := .illegalInstruction, memAddr := none }) := by
  rw [State.fetchExecute, State.fetchBytes_eq, if_pos h]
  simp only [State.executeBytes]
  rw [decode_error.mpr he]
  rfl

theorem State.engineStep_halted {key : Option Reg} {rnd : Byte} (h : s.halt.isSome = true) :
    s.engineStep key rnd = .next s := by simp [State.engineStep, h]

theorem State.engineStep_blocked {key : Option Reg} {rnd : Byte} (h : s.blocked = true) :
    s.engineStep key rnd = .next s := by simp [State.engineStep, h]

theorem State.engineStep_running {key : Option Reg} {rnd : Byte} (h : s.halt = none) (hb : s.blocked = false) :
    s.engineStep key rnd = State.fetchExecute { s with key := key, rnd := rnd } := by simp [State.engineStep, h, hb]

/-- What a step of the engine can do: nothing while halted or blocked; else, with its inputs in place, a fetch that is out of range, the
execution of the word fetched, or the rejection of an illegal one. -/
theorem State.engineStep_cases {key : Option Reg} {rnd : Byte} {t : State} (h : s.engineStep key rnd = .next t) :
    ((s.halt.isSome = true ∨ s.blocked = true) ∧ t = s) ∨
    (s.runs ∧ memSize < s.pc.toNat + 2 ∧
      t = State.raiseFetch { s with key := key, rnd := rnd } (outOfRange (max s.pc.toNat memSize))) ∨
    (s.runs ∧ s.pc.toNat + 2 ≤ memSize ∧ ∃ i, decodeWord s.nextWord = .ok i ∧
      exec i { s with key := key, rnd := rnd, pc := s.pc + 2#16 } = .next t) ∨
    (s.runs ∧ s.pc.toNat + 2 ≤ memSize ∧ ∃ e, decodeWord s.nextWord = .error e ∧
      t = State.raise { s with key := key, rnd := rnd, pc := s.pc + 2#16 } s.nextWord
        { kind := .illegalInstruction, memAddr := none }) := by
  by_cases hr : s.halt.isSome = true ∨ s.blocked = true
  · refine .inl ⟨hr, ?_⟩
    rcases hr with hr | hr
    · rw [State.engineStep_halted s hr] at h; cases h; rfl
    · rw [State.engineStep_blocked s hr] at h; cases h; rfl
  · have hrun : s.runs := by simpa [State.runs] using hr
    rw [State.engineStep_running s hrun.1 hrun.2] at h
    refine .inr ?_
    by_cases hp : s.pc.toNat + 2 ≤ memSize
    · cases hd : decodeWord s.nextWord with
      | ok i =>
        rw [State.fetchExecute_ok { s with key := key, rnd := rnd } hp hd] at h
        exact .inr (.inl ⟨hrun, hp, i, rfl, h⟩)
      | error e =>
        rw [State.fetchExecute_illegal { s with key := key, rnd := rnd } hp hd] at h
        cases h
        exact .inr (.inr ⟨hrun, hp, e, rfl, rfl⟩)
    · rw [State.fetchExecute_outOfRange { s with key := key, rnd := rnd } hp] at h
      cases h
      exact .inl ⟨hrun, by omega, rfl⟩

/-- Every instruction answers a next state. -/
theorem exec_next (i : Instr) (s : State) : ∃ t, exec i s = .next t := by
  have hc : ∀ (w : Word) (r : Except Raise State), ∃ t, s.conclude w r = .next t := by
    intro w r; cases r <;> exact ⟨_, rfl⟩
  cases i <;> first | exact ⟨_, rfl⟩ | exact hc _ _

theorem State.nextOp_cons {op : HostOp} {rest : List HostOp} (h : s.schedule = op :: rest) :
    s.nextOp = (op, { s with schedule := rest }) := by simp [State.nextOp, h]

theorem State.nextOp_nil (h : s.schedule = []) :
    s.nextOp = (.step (Config.freeKey s.draws) (Config.freeByte s.draws), { s with draws := s.draws + 1 }) := by
  simp [State.nextOp, h]

/-- With an operation issued, one transition performs the oldest. -/
theorem step_cons {op : HostOp} {rest : List HostOp} (h : s.schedule = op :: rest) :
    step s = State.perform { s with schedule := rest } op := by
  rw [step, State.advance, State.nextOp_cons s h]

/-- With no operation issued, one transition is a step of the engine with free inputs. -/
theorem step_nil (h : s.schedule = []) :
    step s = State.engineStep { s with draws := s.draws + 1 } (Config.freeKey s.draws) (Config.freeByte s.draws) := by
  rw [step, State.advance, State.nextOp_nil s h]
  rfl

/-- What one transition can do: it performs the oldest operation issued, or a step with free inputs. -/
theorem step_eq :
    (∃ op rest, s.schedule = op :: rest ∧ step s = State.perform { s with schedule := rest } op) ∨
    (s.schedule = [] ∧ step s =
      State.engineStep { s with draws := s.draws + 1 } (Config.freeKey s.draws) (Config.freeByte s.draws)) := by
  by_cases h : s.schedule = []
  · exact .inr ⟨h, step_nil s h⟩
  · obtain ⟨op, rest, h⟩ := List.exists_cons_of_ne_nil h
    exact .inl ⟨op, rest, h, step_cons s h⟩

end Sys2Proof.Machine
end

