-- ==== Sys2Proof/Laws/Exec.lean ====
section
/-! SUPPORT. What the execution of any instruction can do, said once: it ends the session, or it changes only the pieces of state
that instruction writes, and `pc` and the stack stay within their bounds. -/

namespace Sys2Proof.Machine

variable {s t : State}

/-- The pieces of state an instruction that does not halt may write when it is executed in `s`. -/
def Writes (s : State) : Instr → Piece → Prop
  | .cls => fun p => p = .changed ∨ ∃ x y, p = .pixel x y
  | .ret => fun p => p = .pc ∨ p = .stack
  | .sys _ => fun _ => False
  | .jp _ => fun p => p = .pc
  | .call _ => fun p => p = .pc ∨ p = .stack
  | .seImm _ _ => fun p => p = .pc
  | .sneImm _ _ => fun p => p = .pc
  | .seReg _ _ => fun p => p = .pc
  | .ldImm x _ => fun p => p = .reg x
  | .addImm x _ => fun p => p = .reg x
  | .ldReg x _ => fun p => p = .reg x
  | .orReg x _ => fun p => p = .reg x ∨ (s.cfg.quirks.vfReset = true ∧ p = .reg vf)
  | .andReg x _ => fun p => p = .reg x ∨ (s.cfg.quirks.vfReset = true ∧ p = .reg vf)
  | .xorReg x _ => fun p => p = .reg x ∨ (s.cfg.quirks.vfReset = true ∧ p = .reg vf)
  | .addReg x _ => fun p => p = .reg x ∨ p = .reg vf
  | .sub x _ => fun p => p = .reg x ∨ p = .reg vf
  | .shr x _ => fun p => p = .reg x ∨ p = .reg vf
  | .subn x _ => fun p => p = .reg x ∨ p = .reg vf
  | .shl x _ => fun p => p = .reg x ∨ p = .reg vf
  | .sneReg _ _ => fun p => p = .pc
  | .ldI _ => fun p => p = .idx
  | .jpV0 _ => fun p => p = .pc
  | .rnd x _ => fun p => p = .reg x
  | .drw _ _ _ => fun p => p = .reg vf ∨ p = .pc ∨ p = .changed ∨ p = .vblank ∨ ∃ x y, p = .pixel x y
  | .skp _ => fun p => p = .pc
  | .sknp _ => fun p => p = .pc
  | .ldVxDt x => fun p => p = .reg x
  | .ldVxK _ => fun p => p = .keyWait
  | .ldDtVx _ => fun p => p = .dt
  | .ldStVx _ => fun p => p = .st
  | .addI _ => fun p => p = .idx
  | .ldF _ => fun p => p = .idx
  | .ldB _ => fun p => ∃ k, k < 3 ∧ p = .cell (s.idx.toNat + k)
  | .storeRegs x => fun p => p = .idx ∨ ∃ k, k ≤ x.val ∧ p = .cell (s.idx.toNat + k)
  | .loadRegs x => fun p => p = .idx ∨ ∃ r : Reg, r.val ≤ x.val ∧ p = .reg r

theorem SameBut.skipIf {P : Piece → Prop} (s : State) (c : Bool) (h : P .pc) : SameBut P s (s.skipIf c) := by
  rw [State.skipIf_eq]
  exact SameBut.setPc s _ h

theorem SameBut.logicalFlagReset {P : Piece → Prop} (s : State) (h : s.cfg.quirks.vfReset = true → P (.reg vf)) :
    SameBut P s s.logicalFlagReset := by
  rw [State.logicalFlagReset_eq]
  split
  · exact SameBut.setV s vf _ (h ‹_›)
  · exact SameBut.refl _ _

/-- An increment of the index register that does not raise writes the index register alone. -/
theorem State.memIncrement_ok {x : Reg} (h : s.memIncrement x = .ok t) : ∃ a, t = s.setIdx a := by
  unfold State.memIncrement at h
  split at h
  · exact ⟨_, (s.indexAdd_ok h).1⟩
  · cases h; exact ⟨s.idx, rfl⟩

/-- A draw changes the grid, `changed` and VF alone. -/
theorem SameBut.drawRows {P : Piece → Prop} (s : State) (x y : Reg) (rows : List Byte) (hf : P (.reg vf)) (hc : P .changed)
    (hp : ∀ x y, P (.pixel x y)) : SameBut P s (s.drawRows x y rows) := by
  refine SameBut.trans (t := { s with grid := (s.blit x y rows).grid, changed := (s.blit x y rows).changed }) ?_
    (SameBut.setV _ vf _ hf)
  constructor <;> intros <;> first | rfl | exact ⟨rfl, rfl⟩ | exact ⟨rfl, rfl, rfl⟩ | (exfalso; solve_by_elim)

/-- What a draw can do: raise, be rejected by a closed gate, or draw, with the gate's new state of `vblank`. -/
theorem execDrw_cases {x y : Reg} {n : BitVec 4} (h : execDrw x y n s = .next t) :
    (∃ e, t = s.raise (encode (.drw x y n)) e) ∨
    (¬s.gateOpen ∧ ∃ vb, t = s.rejectDraw vb) ∨
    ∃ vb rows, (s.cfg.quirks.dispWait = false → vb = s.vblank) ∧ t = State.drawRows { s with vblank := vb } x y rows := by
  rw [execDrw, State.conclude_next] at h
  rcases h with h | ⟨e, _, he⟩
  · split at h
    · cases h
    · split at h
      · next hd =>
        split at h
        · rw [State.draw_eq] at h
          split at h
          · cases h; exact .inr (.inr ⟨_, _, by simp [hd], rfl⟩)
          · cases h
        · next hg =>
          cases h
          exact .inr (.inl ⟨fun ho => hg (by rw [ho hd]; rfl), _, rfl⟩)
      · rw [State.draw_eq] at h
        split at h
        · cases h; exact .inr (.inr ⟨s.vblank, _, by simp, rfl⟩)
        · cases h
  · exact .inl ⟨e, he⟩

/-- A store of bytes that does not raise places them within memory. -/
theorem State.writeBytes_ok {a : Nat} {bs : List Byte} (h : s.writeBytes a bs = .ok t) :
    t = s.placeBytes a bs ∧ (bs = [] ∨ a + bs.length ≤ memSize) := by
  rw [State.writeBytes_eq] at h
  split at h
  · next hc => exact ⟨by simpa using h.symm, hc⟩
  · cases h

/-- A run of loads from V0 on changes the registers it reaches alone. -/
theorem SameBut.loadRegsFrom {P : Piece → Prop} (s : State) (bs : List Byte) (h : ∀ r : Reg, r.val < bs.length → P (.reg r)) :
    SameBut P s { s with v := loadRegsFrom 0 bs s.v } := by
  constructor
  case reg =>
    intro r hr
    show (Machine.loadRegsFrom 0 bs s.v)[r.val] = s.v[r.val]
    rw [loadRegsFrom_get _ _ _ _ r.isLt, dif_neg]
    exact fun hc => hr (h r (by omega))
  all_goals intros; first | rfl | exact ⟨rfl, rfl⟩ | exact ⟨rfl, rfl, rfl⟩

/-- The execution of an instruction ends the session, or changes only what that instruction writes. -/
theorem exec_writes {i : Instr} (h : exec i s = .next t) :
    (∃ e, t = s.raise (encode i) e) ∨ SameBut (Writes s i) s t := by
  cases i with
  | cls =>
    cases h; right
    constructor <;> intros <;> first | rfl | exact ⟨rfl, rfl⟩ | exact ⟨rfl, rfl, rfl⟩ | (exfalso; simp_all [Writes])
  | ret =>
    rcases s.conclude_next.mp h with h | ⟨e, _, he⟩
    · right
      split at h
      · next hp =>
        obtain ⟨rest, hs, rfl⟩ := s.pop_ok.mp hp
        cases h
        constructor <;> intros <;> first | rfl | exact ⟨rfl, rfl⟩ | exact ⟨rfl, rfl, rfl⟩ | (exfalso; simp_all [Writes])
      · cases h
    · exact .inl ⟨e, he⟩
  | sys nnn => cases h; exact .inl ⟨_, rfl⟩
  | call nnn =>
    rcases s.conclude_next.mp h with h | ⟨e, _, he⟩
    · right
      split at h
      · next hp =>
        obtain ⟨_, rfl⟩ := s.push_ok.mp hp
        cases h
        constructor <;> intros <;> first | rfl | exact ⟨rfl, rfl⟩ | exact ⟨rfl, rfl, rfl⟩ | (exfalso; simp_all [Writes])
      · cases h
    · exact .inl ⟨e, he⟩
  | jp nnn => cases h; exact .inr (SameBut.setPc _ _ rfl)
  | jpV0 nnn => cases h; exact .inr (SameBut.setPc _ _ rfl)
  | seImm x nn => cases h; exact .inr (SameBut.skipIf _ _ rfl)
  | sneImm x nn => cases h; exact .inr (SameBut.skipIf _ _ rfl)
  | seReg x y => cases h; exact .inr (SameBut.skipIf _ _ rfl)
  | sneReg x y => cases h; exact .inr (SameBut.skipIf _ _ rfl)
  | skp x => cases h; exact .inr (SameBut.skipIf _ _ rfl)
  | sknp x => cases h; exact .inr (SameBut.skipIf _ _ rfl)
  | ldImm x nn => cases h; exact .inr (SameBut.setV _ _ _ rfl)
  | addImm x nn => cases h; exact .inr (SameBut.setV _ _ _ rfl)
  | ldReg x y => cases h; exact .inr (SameBut.setV _ _ _ rfl)
  | rnd x nn => cases h; exact .inr (SameBut.setV _ _ _ rfl)
  | ldVxDt x => cases h; exact .inr (SameBut.setV _ _ _ rfl)
  | orReg x y => cases h; exact .inr ((SameBut.setV _ _ _ (.inl rfl)).trans (SameBut.logicalFlagReset _ fun hq => .inr ⟨hq, rfl⟩))
  | andReg x y => cases h; exact .inr ((SameBut.setV _ _ _ (.inl rfl)).trans (SameBut.logicalFlagReset _ fun hq => .inr ⟨hq, rfl⟩))
  | xorReg x y => cases h; exact .inr ((SameBut.setV _ _ _ (.inl rfl)).trans (SameBut.logicalFlagReset _ fun hq => .inr ⟨hq, rfl⟩))
  | addReg x y => cases h; exact .inr (SameBut.setWithFlag _ _ _ _ (.inl rfl) (.inr rfl))
  | sub x y => cases h; exact .inr (SameBut.setWithFlag _ _ _ _ (.inl rfl) (.inr rfl))
  | shr x y => cases h; exact .inr (SameBut.setWithFlag _ _ _ _ (.inl rfl) (.inr rfl))
  | subn x y => cases h; exact .inr (SameBut.setWithFlag _ _ _ _ (.inl rfl) (.inr rfl))
  | shl x y => cases h; exact .inr (SameBut.setWithFlag _ _ _ _ (.inl rfl) (.inr rfl))
  | ldI nnn => cases h; exact .inr (SameBut.setIdx _ _ rfl)
  | ldF x => cases h; exact .inr (SameBut.setIdx _ _ rfl)
  | addI x =>
    rcases s.conclude_next.mp h with h | ⟨e, _, he⟩
    · rw [(s.indexAdd_ok h).1]; exact .inr (SameBut.setIdx _ _ rfl)
    · exact .inl ⟨e, he⟩
  | ldVxK x =>
    cases h; right
    constructor <;> intros <;> first | rfl | exact ⟨rfl, rfl⟩ | exact ⟨rfl, rfl, rfl⟩ | (exfalso; simp_all [Writes])
  | ldDtVx x =>
    cases h; right
    constructor <;> intros <;> first | rfl | exact ⟨rfl, rfl⟩ | exact ⟨rfl, rfl, rfl⟩ | (exfalso; simp_all [Writes])
  | ldStVx x =>
    cases h; right
    constructor <;> intros <;> first | rfl | exact ⟨rfl, rfl⟩ | exact ⟨rfl, rfl, rfl⟩ | (exfalso; simp_all [Writes])
  | drw x y n =>
    rcases execDrw_cases h with he | ⟨_, vb, rfl⟩ | ⟨vb, rows, _, rfl⟩
    · exact .inl he
    · right
      constructor <;> intros <;> first | rfl | exact ⟨rfl, rfl⟩ | exact ⟨rfl, rfl, rfl⟩ | (exfalso; simp_all [Writes])
    · right
      refine SameBut.trans (t := { s with vblank := vb }) ?_ (SameBut.drawRows _ _ _ _ ?_ ?_ ?_)
      · constructor <;> intros <;> first | rfl | exact ⟨rfl, rfl⟩ | exact ⟨rfl, rfl, rfl⟩ | (exfalso; simp_all [Writes])
      all_goals simp [Writes]
  | ldB x =>
    rcases s.conclude_next.mp h with h | ⟨e, _, he⟩
    · rw [(s.writeBytes_ok h).1]; exact .inr (SameBut.placeBytes _ _ _ fun k hk => ⟨k, hk, rfl⟩)
    · exact .inl ⟨e, he⟩
  | storeRegs x =>
    rcases s.conclude_next.mp h with h | ⟨e, _, he⟩
    · right
      split at h
      · next hw =>
        obtain ⟨a, rfl⟩ := State.memIncrement_ok h
        rw [(s.writeBytes_ok hw).1]
        exact (SameBut.placeBytes _ _ _ fun k hk => .inr ⟨k, by rw [State.regRun_length, runLength] at hk; omega, rfl⟩).trans
          (SameBut.setIdx _ _ (.inl rfl))
      · cases h
    · exact .inl ⟨e, he⟩
  | loadRegs x =>
    rcases s.conclude_next.mp h with h | ⟨e, _, he⟩
    · right
      split at h
      · obtain ⟨a, rfl⟩ := State.memIncrement_ok h
        refine SameBut.trans (SameBut.loadRegsFrom s _ (fun r hr => .inr ⟨r, ?_, rfl⟩)) (SameBut.setIdx _ _ (.inl rfl))
        rw [s.readBytes_length ‹_›, runLength] at hr
        omega
      · cases h
    · exact .inl ⟨e, he⟩

/-- What an instruction that does not end the session leaves of memory's form, of the stack and `pc`, and of `vblank` without its quirk. -/
structure Keeps (s t : State) : Prop where
  mem    : Memory.wf (resetByte s.cfg) s.mem = true → Memory.wf (resetByte s.cfg) t.mem = true
  stack  : t.stack = s.stack ∨ t.stack = s.stack.tail ∨ (t.stack = s.pc :: s.stack ∧ s.stack.length ≠ s.cfg.stackDepth)
  pc     : t.pc = s.pc ∨ t.pc = s.pc + 2#16 ∨ t.pc = s.pc - 2#16 ∨ t.pc ∈ s.stack ∨ t.pc.toNat ≤ 0x10FE
  vblank : s.cfg.quirks.dispWait = false → t.vblank = s.vblank

/-- A change of neither memory, the stack, `pc` nor `vblank` keeps them. -/
theorem Keeps.of_eq (hm : t.mem = s.mem) (hs : t.stack = s.stack) (hp : t.pc = s.pc) (hv : t.vblank = s.vblank) : Keeps s t where
  mem h := hm ▸ h
  stack := .inl hs
  pc := .inl hp
  vblank _ := hv

theorem Keeps.setPc (s : State) {a : Word} (h : a = s.pc ∨ a = s.pc + 2#16 ∨ a = s.pc - 2#16 ∨ a ∈ s.stack ∨ a.toNat ≤ 0x10FE) :
    Keeps s (s.setPc a) where
  mem := id
  stack := .inl rfl
  pc := h
  vblank _ := rfl

theorem Keeps.skipIf (s : State) (c : Bool) : Keeps s (s.skipIf c) := by
  rw [State.skipIf_eq]
  apply Keeps.setPc
  cases c <;> simp

theorem Keeps.logicalFlagReset (s : State) (x : Reg) (b : Byte) : Keeps s (s.setV x b).logicalFlagReset := by
  rw [State.logicalFlagReset_eq]
  split <;> exact Keeps.of_eq rfl rfl rfl rfl

/-- A store of bytes within memory keeps all of it. -/
theorem Keeps.writeBytes {a : Nat} {bs : List Byte} (h : s.writeBytes a bs = .ok t) : Keeps s t := by
  obtain ⟨rfl, hn⟩ := s.writeBytes_ok h
  refine ⟨fun hm => ?_, .inl (by simp), .inl (by simp), fun _ => by simp⟩
  rcases hn with rfl | hn
  · exact hm
  · exact s.placeBytes_wf _ _ hm hn

theorem addrImm_toNat (nnn : BitVec 12) : (addrImm nnn).toNat = nnn.toNat := by
  have := nnn.isLt
  simp [addrImm]
  omega

/-- The target of BNNN is at most 0xFFF + 0xFF: the sum does not wrap. -/
theorem State.jumpTarget_toNat (s : State) (nnn : BitVec 12) :
    (s.jumpTarget nnn).toNat = nnn.toNat + (s.getV (jumpReg s.cfg.quirks nnn)).toNat := by
  have := nnn.isLt
  have := (s.getV (jumpReg s.cfg.quirks nnn)).isLt
  rw [State.jumpTarget, BitVec.toNat_add, addrImm_toNat, BitVec.toNat_setWidth]
  omega

/-- The execution of an instruction ends the session, or keeps memory's form and the bounds of the stack and `pc`. -/
theorem exec_keeps {i : Instr} (h : exec i s = .next t) : (∃ e, t = s.raise (encode i) e) ∨ Keeps s t := by
  cases i with
  | cls => cases h; exact .inr (Keeps.of_eq rfl rfl rfl rfl)
  | ret =>
    rcases s.conclude_next.mp h with h | ⟨e, _, he⟩
    · right
      split at h
      · next a _ hp =>
        obtain ⟨rest, hs, rfl⟩ := s.pop_ok.mp hp
        cases h
        exact ⟨id, .inr (.inl (by simp [hs])), .inr (.inr (.inr (.inl (by simp [hs])))), fun _ => rfl⟩
      · cases h
    · exact .inl ⟨e, he⟩
  | sys nnn => cases h; exact .inl ⟨_, rfl⟩
  | call nnn =>
    rcases s.conclude_next.mp h with h | ⟨e, _, he⟩
    · right
      split at h
      · next hp =>
        obtain ⟨hd, rfl⟩ := s.push_ok.mp hp
        cases h
        have := nnn.isLt
        refine ⟨id, .inr (.inr ⟨rfl, hd⟩), .inr (.inr (.inr (.inr ?_))), fun _ => rfl⟩
        simp only [State.setPc_pc, addrImm_toNat]
        omega
      · cases h
    · exact .inl ⟨e, he⟩
  | jp nnn =>
    cases h
    have := nnn.isLt
    refine .inr (Keeps.setPc s (.inr (.inr (.inr (.inr ?_)))))
    rw [addrImm_toNat]
    omega
  | jpV0 nnn =>
    cases h
    have := nnn.isLt
    have := (s.getV (jumpReg s.cfg.quirks nnn)).isLt
    refine .inr (Keeps.setPc s (.inr (.inr (.inr (.inr ?_)))))
    rw [State.jumpTarget_toNat]
    omega
  | seImm x nn => cases h; exact .inr (Keeps.skipIf _ _)
  | sneImm x nn => cases h; exact .inr (Keeps.skipIf _ _)
  | seReg x y => cases h; exact .inr (Keeps.skipIf _ _)
  | sneReg x y => cases h; exact .inr (Keeps.skipIf _ _)
  | skp x => cases h; exact .inr (Keeps.skipIf _ _)
  | sknp x => cases h; exact .inr (Keeps.skipIf _ _)
  | ldImm x nn => cases h; exact .inr (Keeps.of_eq rfl rfl rfl rfl)
  | addImm x nn => cases h; exact .inr (Keeps.of_eq rfl rfl rfl rfl)
  | ldReg x y => cases h; exact .inr (Keeps.of_eq rfl rfl rfl rfl)
  | rnd x nn => cases h; exact .inr (Keeps.of_eq rfl rfl rfl rfl)
  | ldVxDt x => cases h; exact .inr (Keeps.of_eq rfl rfl rfl rfl)
  | orReg x y => cases h; exact .inr (Keeps.logicalFlagReset _ _ _)
  | andReg x y => cases h; exact .inr (Keeps.logicalFlagReset _ _ _)
  | xorReg x y => cases h; exact .inr (Keeps.logicalFlagReset _ _ _)
  | addReg x y => cases h; exact .inr (Keeps.of_eq rfl rfl rfl rfl)
  | sub x y => cases h; exact .inr (Keeps.of_eq rfl rfl rfl rfl)
  | shr x y => cases h; exact .inr (Keeps.of_eq rfl rfl rfl rfl)
  | subn x y => cases h; exact .inr (Keeps.of_eq rfl rfl rfl rfl)
  | shl x y => cases h; exact .inr (Keeps.of_eq rfl rfl rfl rfl)
  | ldI nnn => cases h; exact .inr (Keeps.of_eq rfl rfl rfl rfl)
  | ldF x => cases h; exact .inr (Keeps.of_eq rfl rfl rfl rfl)
  | addI x =>
    rcases s.conclude_next.mp h with h | ⟨e, _, he⟩
    · rw [(s.indexAdd_ok h).1]; exact .inr (Keeps.of_eq rfl rfl rfl rfl)
    · exact .inl ⟨e, he⟩
  | ldVxK x => cases h; exact .inr (Keeps.of_eq rfl rfl rfl rfl)
  | ldDtVx x => cases h; exact .inr (Keeps.of_eq rfl rfl rfl rfl)
  | ldStVx x => cases h; exact .inr (Keeps.of_eq rfl rfl rfl rfl)
  | drw x y n =>
    rcases execDrw_cases h with he | ⟨hd, vb, rfl⟩ | ⟨vb, rows, hv, rfl⟩
    · exact .inl he
    · exact .inr ⟨id, .inl rfl, .inr (.inr (.inl rfl)), fun hq => absurd (fun hw => by simp [hq] at hw) hd⟩
    · exact .inr ⟨id, .inl rfl, .inl rfl, fun hd => hv hd⟩
  | ldB x =>
    rcases s.conclude_next.mp h with h | ⟨e, _, he⟩
    · exact .inr (Keeps.writeBytes h)
    · exact .inl ⟨e, he⟩
  | storeRegs x =>
    rcases s.conclude_next.mp h with h | ⟨e, _, he⟩
    · right
      split at h
      · next hw =>
        obtain ⟨a, rfl⟩ := State.memIncrement_ok h
        have hk := Keeps.writeBytes hw
        exact ⟨hk.mem, hk.stack, hk.pc, hk.vblank⟩
      · cases h
    · exact .inl ⟨e, he⟩
  | loadRegs x =>
    rcases s.conclude_next.mp h with h | ⟨e, _, he⟩
    · right
      split at h
      · obtain ⟨a, rfl⟩ := State.memIncrement_ok h
        exact Keeps.of_eq rfl rfl rfl rfl
      · cases h
    · exact .inl ⟨e, he⟩

end Sys2Proof.Machine
end

