-- ==== Sys2Proof/Laws/PerInstr.lean ====
section
/-! SUPPORT. One lemma per instruction: its word is in its row of the opcode map (30_encoding.md R95). -/

namespace Sys2Proof.Laws.OpcodeRow

/-- The instruction's word has its row's fixed bits: `w & mask = match` (30_encoding.md R95). -/
def Statement (i : Instr) : Prop := encode i &&& rowMask i = rowMatch i

theorem nnn_mask (op : BitVec 4) (nnn : BitVec 12) : formNnn op nnn &&& 0xF000#16 = formNnn op 0#12 := by
  have hm : ∀ i < 16, (0xF000#16).getLsbD i = decide (12 ≤ i) := by decide
  apply BitVec.eq_of_getLsbD_eq
  intro i hi
  rw [BitVec.getLsbD_and, hm i hi, formNnn_getLsbD, formNnn_getLsbD]
  split
  · simp [show ¬12 ≤ i by omega]
  · simp [show 12 ≤ i by omega]

theorem xnn_mask (op : BitVec 4) (x : Reg) (nn : Byte) : formXnn op x nn &&& 0xF000#16 = formNnn op 0#12 :=
  nnn_mask op (nibbleOf x ++ nn)

theorem xy_mask (op : BitVec 4) (x y : Reg) (n : BitVec 4) : formXyn op x y n &&& 0xF00F#16 = formXyn op 0 0 n := by
  have hm : ∀ i < 16, (0xF00F#16).getLsbD i = decide (12 ≤ i ∨ i < 4) := by decide
  apply BitVec.eq_of_getLsbD_eq
  intro i hi
  rw [BitVec.getLsbD_and, hm i hi, formXyn_getLsbD, formXyn_getLsbD]
  split
  · split
    · split
      · simp [show i < 4 by omega]
      · simp [show ¬(12 ≤ i ∨ i < 4) by omega, nibbleOf]
    · simp [show ¬(12 ≤ i ∨ i < 4) by omega, nibbleOf]
  · simp [show 12 ≤ i by omega]

theorem x_mask (op : BitVec 4) (x : Reg) (nn : Byte) : formXnn op x nn &&& 0xF0FF#16 = formXnn op 0 nn := by
  have hm : ∀ i < 16, (0xF0FF#16).getLsbD i = decide (12 ≤ i ∨ i < 8) := by decide
  apply BitVec.eq_of_getLsbD_eq
  intro i hi
  rw [BitVec.getLsbD_and, hm i hi, formXnn_getLsbD, formXnn_getLsbD]
  split
  · split
    · simp [show i < 8 by omega]
    · simp [show ¬(12 ≤ i ∨ i < 8) by omega, nibbleOf]
  · simp [show 12 ≤ i by omega]

theorem cls : Statement .cls := by unfold Statement; decide
theorem ret : Statement .ret := by unfold Statement; decide
theorem sys (nnn : BitVec 12) : Statement (.sys nnn) := (nnn_mask 0x0#4 nnn).trans rfl
theorem jp (nnn : BitVec 12) : Statement (.jp nnn) := (nnn_mask 0x1#4 nnn).trans rfl
theorem call (nnn : BitVec 12) : Statement (.call nnn) := (nnn_mask 0x2#4 nnn).trans rfl
theorem seImm (x : Reg) (nn : Byte) : Statement (.seImm x nn) := (xnn_mask 0x3#4 x nn).trans rfl
theorem sneImm (x : Reg) (nn : Byte) : Statement (.sneImm x nn) := (xnn_mask 0x4#4 x nn).trans rfl
theorem seReg (x y : Reg) : Statement (.seReg x y) := (xy_mask 0x5#4 x y 0x0#4).trans rfl
theorem ldImm (x : Reg) (nn : Byte) : Statement (.ldImm x nn) := (xnn_mask 0x6#4 x nn).trans rfl
theorem addImm (x : Reg) (nn : Byte) : Statement (.addImm x nn) := (xnn_mask 0x7#4 x nn).trans rfl
theorem ldReg (x y : Reg) : Statement (.ldReg x y) := (xy_mask 0x8#4 x y 0x0#4).trans rfl
theorem orReg (x y : Reg) : Statement (.orReg x y) := (xy_mask 0x8#4 x y 0x1#4).trans rfl
theorem andReg (x y : Reg) : Statement (.andReg x y) := (xy_mask 0x8#4 x y 0x2#4).trans rfl
theorem xorReg (x y : Reg) : Statement (.xorReg x y) := (xy_mask 0x8#4 x y 0x3#4).trans rfl
theorem addReg (x y : Reg) : Statement (.addReg x y) := (xy_mask 0x8#4 x y 0x4#4).trans rfl
theorem sub (x y : Reg) : Statement (.sub x y) := (xy_mask 0x8#4 x y 0x5#4).trans rfl
theorem shr (x y : Reg) : Statement (.shr x y) := (xy_mask 0x8#4 x y 0x6#4).trans rfl
theorem subn (x y : Reg) : Statement (.subn x y) := (xy_mask 0x8#4 x y 0x7#4).trans rfl
theorem shl (x y : Reg) : Statement (.shl x y) := (xy_mask 0x8#4 x y 0xE#4).trans rfl
theorem sneReg (x y : Reg) : Statement (.sneReg x y) := (xy_mask 0x9#4 x y 0x0#4).trans rfl
theorem ldI (nnn : BitVec 12) : Statement (.ldI nnn) := (nnn_mask 0xA#4 nnn).trans rfl
theorem jpV0 (nnn : BitVec 12) : Statement (.jpV0 nnn) := (nnn_mask 0xB#4 nnn).trans rfl
theorem rnd (x : Reg) (nn : Byte) : Statement (.rnd x nn) := (xnn_mask 0xC#4 x nn).trans rfl
theorem drw (x y : Reg) (n : BitVec 4) : Statement (.drw x y n) := (xnn_mask 0xD#4 x (nibbleOf y ++ n)).trans rfl
theorem skp (x : Reg) : Statement (.skp x) := (x_mask 0xE#4 x 0x9E#8).trans rfl
theorem sknp (x : Reg) : Statement (.sknp x) := (x_mask 0xE#4 x 0xA1#8).trans rfl
theorem ldVxDt (x : Reg) : Statement (.ldVxDt x) := (x_mask 0xF#4 x 0x07#8).trans rfl
theorem ldVxK (x : Reg) : Statement (.ldVxK x) := (x_mask 0xF#4 x 0x0A#8).trans rfl
theorem ldDtVx (x : Reg) : Statement (.ldDtVx x) := (x_mask 0xF#4 x 0x15#8).trans rfl
theorem ldStVx (x : Reg) : Statement (.ldStVx x) := (x_mask 0xF#4 x 0x18#8).trans rfl
theorem addI (x : Reg) : Statement (.addI x) := (x_mask 0xF#4 x 0x1E#8).trans rfl
theorem ldF (x : Reg) : Statement (.ldF x) := (x_mask 0xF#4 x 0x29#8).trans rfl
theorem ldB (x : Reg) : Statement (.ldB x) := (x_mask 0xF#4 x 0x33#8).trans rfl
theorem storeRegs (x : Reg) : Statement (.storeRegs x) := (x_mask 0xF#4 x 0x55#8).trans rfl
theorem loadRegs (x : Reg) : Statement (.loadRegs x) := (x_mask 0xF#4 x 0x65#8).trans rfl

end Sys2Proof.Laws.OpcodeRow
end

