-- ==== Sys2Proof/Tests/Slice0.lean ====
section
/-! SUPPORT. Tests of one step each, whose expected results are those of spec/95_test_vectors.md (the vector is named beside each) and of
the opcode map of 30_encoding.md R95; the smoke test of WellFormed; and for each obligation with hypotheses a state that meets them. -/

namespace Sys2Proof.Tests

open Sys2Proof.Machine

/-! ### Helpers -/

/-- The reset state under the quirks `q`. -/
def session (q : Quirks) : State := { State.reset with cfg := { defaultConfig with quirks := q } }

/-- The state with the word `w` placed and one step issued. -/
def placed (s : State) (w : Nat) (key : Option Reg := none) (rnd : Byte := 0#8) : State :=
  { s.withFetchWord 16 w with schedule := [.step key rnd] }

/-- The state after one transition; a fault or a refusal would give the state before it. -/
def after (s : State) : State :=
  match step s with
  | .next t => t
  | _ => s

/-- The state after one step that fetches the word `w`. -/
def run (s : State) (w : Nat) (key : Option Reg := none) (rnd : Byte := 0#8) : State := after (placed s w key rnd)

/-- The state after one operation of the host. -/
def host (s : State) (op : HostOp) : State := after { s with schedule := [op] }

/-- The record of a fatal error of the word `w` at 0x200. -/
def record (kind : HaltKind) (w : Word) (memAddr : Option Nat := none) : Option HaltRecord :=
  some { kind := kind, instrAddr := 0x200#16, word := some w, memAddr := memAddr }

/-! ### WellFormed: an ill-formed term for each check -/

/-- R94, R97: 00E0 is CLS, not SYS. -/
theorem test_wf_sys_cls : (Instr.sys 0x0E0#12).wf = false := by decide
/-- R94, R97: 00EE is RET, not SYS. -/
theorem test_wf_sys_ret : (Instr.sys 0x0EE#12).wf = false := by decide
/-- R97: 0000 and 0FFF are SYS. -/
theorem test_wf_sys : (Instr.sys 0x000#12).wf = true ∧ (Instr.sys 0xFFF#12).wf = true := by decide
/-- R7: `STACK_DEPTH` is at least 1. -/
theorem test_wf_stack_depth : Config.wf { defaultConfig with stackDepth := 0 } = false ∧ defaultConfig.wf = true := by decide
/-- R7: a load carries an allowed configuration. -/
theorem test_wf_load : HostOp.wf (.load { defaultConfig with stackDepth := 0 } []) = false := by decide
/-- The canonical form of memory refuses a cell twice, a falling address, an address out of memory, and a byte equal to the unlisted one. -/
theorem test_wf_memory :
    Memory.wf (fun _ => 0#8) [(3, 1#8), (3, 1#8)] = false ∧ Memory.wf (fun _ => 0#8) [(3, 1#8), (2, 1#8)] = false ∧
    Memory.wf (fun _ => 0#8) [(4096, 1#8)] = false ∧ Memory.wf (fun _ => 0#8) [(3, 0#8)] = false ∧
    Memory.wf (fun _ => 0#8) [(2, 1#8), (4095, 1#8)] = true := by decide

/-! ### Decoding: every constructor by a word written out from the opcode map (R95), and the neighbours the map leaves illegal (R96) -/

theorem test_decode_cls : decodeTableWord 16 0x00E0 = some .cls := by decide
theorem test_decode_ret : decodeTableWord 16 0x00EE = some .ret := by decide
theorem test_decode_sys : decodeTableWord 16 0x0ABC = some (.sys 0xABC#12) := by decide
theorem test_decode_jp : decodeTableWord 16 0x1ABC = some (.jp 0xABC#12) := by decide
theorem test_decode_call : decodeTableWord 16 0x2ABC = some (.call 0xABC#12) := by decide
theorem test_decode_seImm : decodeTableWord 16 0x3A5C = some (.seImm 10 0x5C#8) := by decide
theorem test_decode_sneImm : decodeTableWord 16 0x4A5C = some (.sneImm 10 0x5C#8) := by decide
theorem test_decode_seReg : decodeTableWord 16 0x5AC0 = some (.seReg 10 12) := by decide
theorem test_decode_ldImm : decodeTableWord 16 0x6A5C = some (.ldImm 10 0x5C#8) := by decide
theorem test_decode_addImm : decodeTableWord 16 0x7A5C = some (.addImm 10 0x5C#8) := by decide
theorem test_decode_ldReg : decodeTableWord 16 0x8AC0 = some (.ldReg 10 12) := by decide
theorem test_decode_orReg : decodeTableWord 16 0x8AC1 = some (.orReg 10 12) := by decide
theorem test_decode_andReg : decodeTableWord 16 0x8AC2 = some (.andReg 10 12) := by decide
theorem test_decode_xorReg : decodeTableWord 16 0x8AC3 = some (.xorReg 10 12) := by decide
theorem test_decode_addReg : decodeTableWord 16 0x8AC4 = some (.addReg 10 12) := by decide
theorem test_decode_sub : decodeTableWord 16 0x8AC5 = some (.sub 10 12) := by decide
theorem test_decode_shr : decodeTableWord 16 0x8AC6 = some (.shr 10 12) := by decide
theorem test_decode_subn : decodeTableWord 16 0x8AC7 = some (.subn 10 12) := by decide
theorem test_decode_shl : decodeTableWord 16 0x8ACE = some (.shl 10 12) := by decide
theorem test_decode_sneReg : decodeTableWord 16 0x9AC0 = some (.sneReg 10 12) := by decide
theorem test_decode_ldI : decodeTableWord 16 0xAABC = some (.ldI 0xABC#12) := by decide
theorem test_decode_jpV0 : decodeTableWord 16 0xBABC = some (.jpV0 0xABC#12) := by decide
theorem test_decode_rnd : decodeTableWord 16 0xCA5C = some (.rnd 10 0x5C#8) := by decide
theorem test_decode_drw : decodeTableWord 16 0xDAC7 = some (.drw 10 12 7#4) := by decide
theorem test_decode_skp : decodeTableWord 16 0xEA9E = some (.skp 10) := by decide
theorem test_decode_sknp : decodeTableWord 16 0xEAA1 = some (.sknp 10) := by decide
theorem test_decode_ldVxDt : decodeTableWord 16 0xFA07 = some (.ldVxDt 10) := by decide
theorem test_decode_ldVxK : decodeTableWord 16 0xFA0A = some (.ldVxK 10) := by decide
theorem test_decode_ldDtVx : decodeTableWord 16 0xFA15 = some (.ldDtVx 10) := by decide
theorem test_decode_ldStVx : decodeTableWord 16 0xFA18 = some (.ldStVx 10) := by decide
theorem test_decode_addI : decodeTableWord 16 0xFA1E = some (.addI 10) := by decide
theorem test_decode_ldF : decodeTableWord 16 0xFA29 = some (.ldF 10) := by decide
theorem test_decode_ldB : decodeTableWord 16 0xFA33 = some (.ldB 10) := by decide
theorem test_decode_storeRegs : decodeTableWord 16 0xFA55 = some (.storeRegs 10) := by decide
theorem test_decode_loadRegs : decodeTableWord 16 0xFA65 = some (.loadRegs 10) := by decide

/-- R96's table, each of its rows. -/
theorem test_decode_illegal :
    decodeTableWord 16 0x5AC1 = none ∧ decodeTableWord 16 0x8AC8 = none ∧ decodeTableWord 16 0x8ACF = none ∧
    decodeTableWord 16 0x9ACF = none ∧ decodeTableWord 16 0xEA9F = none ∧ decodeTableWord 16 0xFAFF = none := by decide

/-- R64: the first byte of an instruction is the word's high byte. -/
theorem test_decode_bytes : decode [0x6A#8, 0x2F#8, 0xFF#8] = .ok (.ldImm 10 0x2F#8, [0xFF#8]) := rfl
/-- R90: an instruction is two bytes. -/
theorem test_decode_truncated : decode [0x6A#8] = .error .truncated := rfl

/-! ### Control flow (95_test_vectors.md, C) -/

/-- C.1, and C.2: an odd target. -/
theorem test_jp : (run .reset 0x1234).pc = 0x234#16 ∧ (run .reset 0x1201).pc = 0x201#16 := by decide
/-- C.3. -/
theorem test_call : (run .reset 0x2300).pc = 0x300#16 ∧ (run .reset 0x2300).stack = [0x202#16] := by decide
/-- C.6. -/
theorem test_call_overflow :
    (run { State.reset with stack := List.replicate 16 0x202#16 } 0x2300).halt = record .stackOverflow 0x2300#16 := by decide
/-- C.4. -/
theorem test_ret :
    (run { State.reset with stack := [0x20C#16] } 0x00EE).pc = 0x20C#16 ∧
    (run { State.reset with stack := [0x20C#16] } 0x00EE).stack = [] := by decide
/-- C.5. -/
theorem test_ret_underflow : (run .reset 0x00EE).halt = record .stackUnderflow 0x00EE#16 := by decide
/-- C.7. -/
theorem test_sys : (run .reset 0x0123).halt = record .nativeCallUnimplemented 0x0123#16 := by decide
/-- C.9 and C.10. -/
theorem test_seImm :
    (run (State.reset.setV 3 0x10#8) 0x3310).pc = 0x204#16 ∧ (run (State.reset.setV 3 0x10#8) 0x3311).pc = 0x202#16 := by decide
/-- C.11 and C.12. -/
theorem test_sneImm :
    (run (State.reset.setV 3 0x10#8) 0x4311).pc = 0x204#16 ∧ (run (State.reset.setV 3 0x10#8) 0x4310).pc = 0x202#16 := by decide
/-- C.13 and C.14. -/
theorem test_seReg :
    (run ((State.reset.setV 1 7#8).setV 2 7#8) 0x5120).pc = 0x204#16 ∧
    (run ((State.reset.setV 1 7#8).setV 2 8#8) 0x5120).pc = 0x202#16 := by decide
/-- C.16 and C.17. -/
theorem test_sneReg :
    (run ((State.reset.setV 1 7#8).setV 2 8#8) 0x9120).pc = 0x204#16 ∧ (run (State.reset.setV 1 7#8) 0x9110).pc = 0x202#16 := by
  decide
/-- W8 and C.20, both settings of `jump_vx`. -/
theorem test_jpV0 :
    (run (((session quirksChip8).setV 0 0x10#8).setV 2 0x01#8) 0xB234).pc = 0x244#16 ∧
    (run (((session quirksSchip).setV 0 0x10#8).setV 2 0x01#8) 0xB234).pc = 0x235#16 := by decide
/-- C.21: the sum is not cut to 12 bits. -/
theorem test_jpV0_top : (run ((session quirksChip8).setV 0 0xFF#8) 0xBFFF).pc = 0x10FE#16 := by decide

/-! ### Registers and arithmetic (A) -/

/-- A.1 and A.2. -/
theorem test_ldImm : (run .reset 0x6A2F).getV 10 = 0x2F#8 ∧ (run .reset 0x6FAA).getV 15 = 0xAA#8 := by decide
/-- A.4: the sum wraps in VF itself, no flag. -/
theorem test_addImm : (run (State.reset.setV 15 0xFF#8) 0x7F01).getV 15 = 0x00#8 := by decide
/-- A.3: no flag. -/
theorem test_addImm_noFlag :
    (run (State.reset.setV 15 5#8) 0x71FF).getV 1 = 0xFF#8 ∧ (run (State.reset.setV 15 5#8) 0x71FF).getV 15 = 5#8 := by decide
/-- A.5. -/
theorem test_ldReg : (run (State.reset.setV 2 0x55#8) 0x8120).getV 1 = 0x55#8 := by decide
/-- A.6 under CHIP8 and SCHIP. -/
theorem test_orReg :
    (run ((((session quirksChip8).setV 1 0x0F#8).setV 2 0xF0#8).setV 15 1#8) 0x8121).getV 15 = 0#8 ∧
    (run ((((session quirksSchip).setV 1 0x0F#8).setV 2 0xF0#8).setV 15 1#8) 0x8121).getV 15 = 1#8 := by decide
/-- A.7: X = 15, the reset overrides the result. -/
theorem test_orReg_vf :
    (run (((session quirksChip8).setV 15 1#8).setV 2 2#8) 0x8F21).getV 15 = 0#8 ∧
    (run (((session quirksSchip).setV 15 1#8).setV 2 2#8) 0x8F21).getV 15 = 3#8 := by decide
/-- A.8. -/
theorem test_andReg :
    (run (((session quirksChip8).setV 1 0x3C#8).setV 15 7#8) 0x8112).getV 1 = 0x3C#8 ∧
    (run (((session quirksChip8).setV 1 0x3C#8).setV 15 7#8) 0x8112).getV 15 = 0#8 := by decide
/-- A.9. -/
theorem test_xorReg :
    (run (((session quirksXochip).setV 1 0x3C#8).setV 15 7#8) 0x8113).getV 1 = 0#8 ∧
    (run (((session quirksXochip).setV 1 0x3C#8).setV 15 7#8) 0x8113).getV 15 = 7#8 := by decide
/-- A.12: the flag wins over the sum. -/
theorem test_addReg_vf : (run ((State.reset.setV 15 0xFF#8).setV 1 1#8) 0x8F14).getV 15 = 1#8 := by decide
/-- A.13: the old VF is the addend. -/
theorem test_addReg :
    (run ((State.reset.setV 1 0xFF#8).setV 15 1#8) 0x81F4).getV 1 = 0#8 ∧
    (run ((State.reset.setV 1 0xFF#8).setV 15 1#8) 0x81F4).getV 15 = 1#8 := by decide
/-- W3, second row. -/
theorem test_sub :
    (run ((State.reset.setV 1 3#8).setV 2 5#8) 0x8125).getV 1 = 0xFE#8 ∧
    (run ((State.reset.setV 1 3#8).setV 2 5#8) 0x8125).getV 15 = 0#8 := by decide
/-- A.14: X = 15, the flag and not the difference. -/
theorem test_sub_vf : (run ((State.reset.setV 15 0x10#8).setV 2 1#8) 0x8F25).getV 15 = 1#8 := by decide
/-- W3, fifth row. -/
theorem test_subn :
    (run ((State.reset.setV 1 3#8).setV 2 5#8) 0x8127).getV 1 = 2#8 ∧
    (run ((State.reset.setV 1 3#8).setV 2 5#8) 0x8127).getV 15 = 1#8 := by decide
/-- A.15: equal operands do not borrow. -/
theorem test_subn_equal :
    (run (State.reset.setV 1 9#8) 0x8117).getV 1 = 0#8 ∧ (run (State.reset.setV 1 9#8) 0x8117).getV 15 = 1#8 := by decide
/-- A.16 under SCHIP and CHIP8. -/
theorem test_shr :
    (run (((session quirksSchip).setV 1 0x05#8).setV 2 0x81#8) 0x8126).getV 1 = 0x02#8 ∧
    (run (((session quirksChip8).setV 1 0x05#8).setV 2 0x81#8) 0x8126).getV 1 = 0x40#8 := by decide
/-- A.18: X = 15, the bit shifted out wins. -/
theorem test_shr_vf : (run ((session quirksSchip).setV 15 2#8) 0x8F06).getV 15 = 0#8 := by decide
/-- A.17 under SCHIP. -/
theorem test_shl :
    (run (((session quirksSchip).setV 1 0x81#8).setV 2 0x40#8) 0x812E).getV 1 = 0x02#8 ∧
    (run (((session quirksSchip).setV 1 0x81#8).setV 2 0x40#8) 0x812E).getV 15 = 1#8 := by decide
/-- A.17 under CHIP8. -/
theorem test_shl_source :
    (run (((session quirksChip8).setV 1 0x81#8).setV 2 0x40#8) 0x812E).getV 1 = 0x80#8 ∧
    (run (((session quirksChip8).setV 1 0x81#8).setV 2 0x40#8) 0x812E).getV 15 = 0#8 := by decide
/-- A.20. -/
theorem test_rnd : (run .reset 0xC30F none 0xAB#8).getV 3 = 0x0B#8 := by decide
/-- A.22: with no operation issued the byte is free. -/
theorem test_rnd_free : (after (State.reset.withFetchWord 16 0xC3FF)).getV 3 = Config.freeByte 0 &&& 0xFF#8 := rfl

/-! ### Index register and memory (I) -/

/-- I.2. -/
theorem test_ldI : (run .reset 0xAFFF).idx = 0xFFF#16 := by decide
/-- I.4: past memory, no fault, VF unchanged. -/
theorem test_addI :
    (run (({ State.reset with idx := 0xFFF#16 } : State).setV 2 1#8) 0xF21E).idx = 0x1000#16 ∧
    (run (({ State.reset with idx := 0xFFF#16 } : State).setV 2 1#8) 0xF21E).getV 15 = 0#8 := by decide
/-- I.5, both policies. -/
theorem test_addI_overflow :
    (run (({ State.reset with idx := 0xFFFF#16 } : State).setV 2 1#8) 0xF21E).halt = record .indexOverflow 0xF21E#16 ∧
    (run (({ State.reset with idx := 0xFFFF#16, cfg := { defaultConfig with iOverflow := .wrap } } : State).setV 2 1#8) 0xF21E).idx
      = 0#16 := by decide
/-- I.7 and I.8. -/
theorem test_ldF :
    (run (State.reset.setV 0 0x0F#8) 0xF029).idx = 0x04B#16 ∧ (run (State.reset.setV 0 0x1A#8) 0xF029).idx = 0x032#16 := by decide
/-- I.9. -/
theorem test_ldB :
    (run (({ State.reset with idx := 0x300#16 } : State).setV 3 0xFF#8) 0xF333).mem
      = [(0x200, 0xF3#8), (0x201, 0x33#8), (0x300, 2#8), (0x301, 5#8), (0x302, 5#8)] := by decide
/-- I.10. -/
theorem test_ldB_fault :
    (run { State.reset with idx := 0xFFE#16 } 0xF333).halt = record .addressOutOfRange 0xF333#16 (some 0x1000) := by decide
/-- I.11 under CHIP8. -/
theorem test_storeRegs :
    (run ((({ session quirksChip8 with idx := 0x300#16 } : State).setV 0 1#8).setV 1 2#8) 0xF155).mem
      = [(0x200, 0xF1#8), (0x201, 0x55#8), (0x300, 1#8), (0x301, 2#8)] ∧
    (run ((({ session quirksChip8 with idx := 0x300#16 } : State).setV 0 1#8).setV 1 2#8) 0xF155).idx = 0x302#16 := by decide
/-- I.15. -/
theorem test_storeRegs_fault :
    (run { State.reset with idx := 0xFFF0#16 } 0xFF55).halt = record .addressOutOfRange 0xFF55#16 (some 0xFFF0) := by decide
/-- I.13 under CHIP8. -/
theorem test_loadRegs :
    (run ({ session quirksChip8 with idx := 0x300#16, mem := [(0x300, 0x11#8), (0x30F, 0x42#8)] }) 0xFF65).v.toList
      = [0x11#8, 0#8, 0#8, 0#8, 0#8, 0#8, 0#8, 0#8, 0#8, 0#8, 0#8, 0#8, 0#8, 0#8, 0#8, 0x42#8] ∧
    (run ({ session quirksChip8 with idx := 0x300#16, mem := [(0x300, 0x11#8), (0x30F, 0x42#8)] }) 0xFF65).idx = 0x310#16 := by
  decide
/-- I.14. -/
theorem test_loadRegs_fault :
    (run { State.reset with idx := 0xFFF#16 } 0xF165).halt = record .addressOutOfRange 0xF165#16 (some 0x1000) := by decide

/-! ### Display (D1, D2) -/

/-- A sprite at 0x300 under the quirks `q`, with the two coordinates in V1 and V2. -/
def spriteAt (q : Quirks) (x y : Byte) (mem : List Host.Cell) : State :=
  (({ session q with idx := 0x300#16, mem := mem } : State).setV 1 x).setV 2 y

/-- D1.12. -/
theorem test_cls :
    (run { State.reset with grid := clearGrid.toggle 3 4, vblank := .waitingForDraw } 0x00E0).grid.pixel 3 4 = false ∧
    (run { State.reset with grid := clearGrid.toggle 3 4, vblank := .waitingForDraw } 0x00E0).vblank = .waitingForDraw := by decide
/-- D1.6: two pixels, one cleared, VF 1. -/
theorem test_drw :
    let t := run { spriteAt quirksSchip 0#8 0#8 [(0x300, 0xC0#8)] with grid := clearGrid.toggle 1 0 } 0xD121
    t.grid.pixel 0 0 = true ∧ t.grid.pixel 1 0 = false ∧ t.getV 15 = 1#8 := by decide
/-- W11: the start is masked, under every preset alike. -/
theorem test_drw_masked : (run (spriteAt quirksChip8 0x45#8 0x25#8 [(0x300, 0x80#8)]) 0xD121).grid.pixel 5 5 = true := by decide
/-- D1.3: the right edge, discarded under SCHIP and wrapped under XOCHIP. -/
theorem test_drw_edge :
    (run (spriteAt quirksSchip 60#8 31#8 [(0x300, 0xFF#8)]) 0xD121).grid.pixel 0 31 = false ∧
    (run (spriteAt quirksXochip 60#8 31#8 [(0x300, 0xFF#8)]) 0xD121).grid.pixel 0 31 = true := by decide
/-- D1.10: rows off the grid are still read. -/
theorem test_drw_fault :
    (run { spriteAt quirksSchip 0#8 31#8 [] with idx := 0xFFE#16 } 0xD123).halt
      = record .addressOutOfRange 0xD123#16 (some 0x1000) := by decide
/-- D1.11. -/
theorem test_drw_zero :
    (run .reset 0xD120).halt = record .unmodelled 0xD120#16 ∧
    (run { State.reset with cfg := { defaultConfig with dxy0Policy := .zeroRows } } 0xD120).pc = 0x202#16 := by decide
/-- D2.1: the draw takes the slot. -/
theorem test_drw_gate : (run (spriteAt quirksChip8 0#8 0#8 [(0x300, 0x80#8)]) 0xD121).vblank = .waitingForDraw := by decide
/-- D2.2: the second is rejected and stays at its own address. -/
theorem test_drw_rejected :
    let t := run { spriteAt quirksChip8 0#8 0#8 [(0x300, 0x80#8)] with vblank := .waitingForDraw } 0xD121
    t.vblank = .waitingForInterrupt ∧ t.pc = 0x200#16 ∧ t.grid.pixel 0 0 = false := by decide

/-! ### Timers and keys (T) -/

/-- T.1. -/
theorem test_ldVxDt : (run { State.reset with dt := 0x3C#8 } 0xF407).getV 4 = 0x3C#8 := by decide
/-- T.2. -/
theorem test_ldDtVx : (run (State.reset.setV 3 3#8) 0xF315).dt = 3#8 := by decide
/-- T.3. -/
theorem test_ldStVx : (run (State.reset.setV 3 0x10#8) 0xF318).st = 0x10#8 := by decide
/-- T.7 and T.9: the compare is of 8 bits. -/
theorem test_skp :
    (run (State.reset.setV 5 5#8) 0xE59E (some 5)).pc = 0x204#16 ∧ (run (State.reset.setV 5 0x15#8) 0xE59E (some 5)).pc = 0x202#16 := by
  decide
/-- T.10, and W10: with no key the not-pressed skip is taken. -/
theorem test_sknp :
    (run (State.reset.setV 5 5#8) 0xE5A1 (some 5)).pc = 0x202#16 ∧ (run (State.reset.setV 5 5#8) 0xE5A1).pc = 0x204#16 := by decide
/-- T.12: the step's key is not consumed. -/
theorem test_ldVxK :
    (run .reset 0xF30A (some 7)).blocked = true ∧ (run .reset 0xF30A (some 7)).waitReg = 3 ∧
    (run .reset 0xF30A (some 7)).getV 3 = 0#8 := by decide
/-- T.15. -/
theorem test_deliver_key :
    (host (run .reset 0xFF0A) (.deliverKey 9)).getV 15 = 9#8 ∧ (host (run .reset 0xFF0A) (.deliverKey 9)).blocked = false := by decide
/-- T.6 and T.5. -/
theorem test_frame_boundary_timers :
    (host { State.reset with dt := 0xFF#8, st := 2#8 } .frameBoundary).dt = 0xFE#8 ∧
    (host { State.reset with dt := 0xFF#8, st := 2#8 } .frameBoundary).st = 1#8 ∧ (host .reset .frameBoundary).dt = 0#8 := by decide
/-- D2.4 and D2.6. -/
theorem test_frame_boundary_vblank :
    (host { State.reset with vblank := .waitingForInterrupt } .frameBoundary).vblank = .free ∧
    (host { State.reset with vblank := .waitingForDraw } .frameBoundary).vblank = .waitingForDraw ∧
    (host { State.reset with vblank := .waitingForDraw, cfg := { defaultConfig with vblankReleaseWfd := true } } .frameBoundary).vblank
      = .free := by decide

/-! ### Fetch, faults and the load (F) -/

/-- F.1. -/
theorem test_fetch_fault :
    (host { State.reset with pc := 0xFFF#16 } (.step none 0#8)).halt
      = some { kind := .addressOutOfRange, instrAddr := 0xFFF#16, word := none, memAddr := some 0x1000 } := by decide
/-- F.3. -/
theorem test_illegal : (run .reset 0x8008).halt = record .illegalInstruction 0x8008#16 := by decide
/-- F.10: from reset with nothing placed. -/
theorem test_empty_image : (after .reset).halt = record .nativeCallUnimplemented 0x0000#16 := by decide
/-- R340: the image is placed at 0x200, its first byte first, and the next step runs it (F.9). -/
theorem test_load :
    (after (after { State.reset with schedule := [.load defaultConfig [0x12#8, 0x34#8], .step none 0#8] })).pc = 0x234#16 := by decide
/-- R342: glyph 0 begins at 0x000, glyph F ends at 0x04F. -/
theorem test_font : State.reset.readByte 0 = 0xF0#8 ∧ State.reset.readByte 79 = 0x80#8 ∧ State.reset.readByte 80 = 0#8 := by decide
/-- R300: the codes. -/
theorem test_codes : [HaltKind.illegalInstruction, .nativeCallUnimplemented, .stackUnderflow, .stackOverflow, .addressOutOfRange,
    .indexOverflow, .unmodelled].map HaltKind.code = [1, 2, 3, 4, 5, 6, 7] := by decide

end Sys2Proof.Tests
end

