-- ==== Sys2Proof/Tests/Witnesses.lean ====
section
/-! SUPPORT. For each obligation with hypotheses, states and operands that meet all of them together, at the boundaries of their ranges;
for an obligation of several clauses, one for each. -/

namespace Sys2Proof.Tests

open Sys2Proof.Machine

/-! ### Encoding -/

theorem witness_EncodeThenDecodeIsIdentity :
    (Instr.drw 15 0 15#4).wf = true ∧ (Instr.sys 0x0E1#12).wf = true ∧ (Instr.sys 0x0EF#12).wf = true := by decide

theorem witness_DecodeThenEncodeIsIdentity : decodeWord 0xFF65#16 = .ok (.loadRegs 15) := rfl

/-- Each row of the table of illegal words. -/
theorem witness_IllegalWordsAreExactlyTheTable :
    (IllegalWord 0x5001#16 ∧ IllegalWord 0x8FFF#16 ∧ IllegalWord 0x900F#16 ∧ IllegalWord 0xE09F#16 ∧ IllegalWord 0xFFFF#16) ∧
    decodeWord 0xFFFF#16 = .error (.illegalInstruction 0xFFFF#16) :=
  ⟨⟨.inl (by decide), .inr (.inl (by decide)), .inr (.inr (.inl (by decide))), .inr (.inr (.inr (.inl (by decide)))),
    .inr (.inr (.inr (.inr (by decide))))⟩, rfl⟩

/-! ### The step and the host's operations -/

/-- The state whose `pc` is the last address with a whole word, which holds JP 0xFFE (95_test_vectors.md C.23). -/
def lastWord : State := State.withFetchWord { State.reset with pc := 0xFFE#16 } 16 0x1FFE

theorem witness_StepRunsTheDecodedInstruction_issued :
    let s := { lastWord with schedule := [.step (some 15) 0xFF#8] }
    s.runs ∧ s.pc.toNat + 1 < 4096 ∧ decodeWord s.nextWord = .ok (.jp 0xFFE#12) ∧ s.schedule = .step (some 15) 0xFF#8 :: [] :=
  ⟨⟨rfl, rfl⟩, by decide, rfl, rfl⟩

theorem witness_StepRunsTheDecodedInstruction_free :
    lastWord.runs ∧ lastWord.pc.toNat + 1 < 4096 ∧ decodeWord lastWord.nextWord = .ok (.jp 0xFFE#12) ∧ lastWord.schedule = [] :=
  ⟨⟨rfl, rfl⟩, by decide, rfl, rfl⟩

theorem witness_FetchIsBigEndian : lastWord.pc.toNat + 1 < 4096 := by decide

/-- Both values of the record's memory address: the second byte is out of range, or the first. -/
theorem witness_FetchOutOfRangeHalts :
    (State.runs { State.reset with pc := 0xFFF#16 } ∧ 4096 ≤ (0xFFF#16 : Word).toNat + 1 ∧ (0xFFF#16 : Word).toNat < 4096) ∧
    (State.runs { State.reset with pc := 0x1000#16 } ∧ 4096 ≤ (0x1000#16 : Word).toNat + 1 ∧ ¬(0x1000#16 : Word).toNat < 4096) :=
  ⟨⟨⟨rfl, rfl⟩, by decide⟩, ⟨rfl, rfl⟩, by decide⟩

theorem witness_IllegalWordHalts :
    let s := State.withFetchWord { State.reset with pc := 0xFFE#16 } 16 0xF0FF
    s.runs ∧ s.pc.toNat + 1 < 4096 ∧ IllegalWord s.nextWord :=
  ⟨⟨rfl, rfl⟩, by decide, .inr (.inr (.inr (.inr (by decide))))⟩

theorem witness_FaultNamesTheFetchedWord :
    let s := State.withFetchWord { State.reset with pc := 0xFFE#16 } 16 0x00EE
    s.runs ∧ s.pc.toNat + 1 < 4096 ∧ ∃ t h, s.perform (.step none 0#8) = .next t ∧ t.halt = some h :=
  ⟨⟨rfl, rfl⟩, by decide, _, _, rfl, rfl⟩

theorem witness_HaltedOrBlockedEngineDoesNothing :
    (run .reset 0x0000).halt.isSome = true ∧ (run .reset 0xF00A).blocked = true ∧ (run .reset 0xF00A).halt = none := by decide

/-- The two cases of the conclusion: a halted engine stepped, and one given a load. -/
theorem witness_OnlyALoadClearsTheHalt :
    (∃ h t, (run .reset 0x0000).halt = some h ∧ step (run .reset 0x0000) = .next t) ∧
    (∃ h t, ({ run .reset 0x0000 with schedule := [.load defaultConfig []] } : State).halt = some h ∧
      step { run .reset 0x0000 with schedule := [.load defaultConfig []] } = .next t) :=
  ⟨⟨_, _, rfl, rfl⟩, _, _, rfl, rfl⟩

theorem witness_DeliverKeyEndsTheWait :
    ((run .reset 0xFF0A).halt = none ∧ (run .reset 0xFF0A).blocked = true) ∧ State.reset.blocked = false := by decide

theorem witness_FrameBoundaryTicksTheTimers : State.reset.halt = none := rfl

/-- Both values of `vblank` after: kept, and freed. -/
theorem witness_FrameBoundaryReleasesTheDisplayWait :
    (({ State.reset with vblank := .waitingForDraw } : State).halt = none ∧
      (VBlank.waitingForDraw = .waitingForDraw ∧ State.reset.cfg.vblankReleaseWfd = false)) ∧
    (({ State.reset with vblank := .waitingForInterrupt } : State).halt = none ∧ VBlank.waitingForInterrupt ≠ .waitingForDraw) := by
  decide

/-- The longest image that fits, at whose last byte the memory ends; and an address in none of the clauses' first ranges. -/
theorem witness_LoadEstablishesTheSession :
    (List.replicate 3584 0xFF#8).length ≤ 3584 ∧ (0x200 ≤ 4095 ∧ 4095 < 0x200 + (List.replicate 3584 0xFF#8).length) ∧
    ¬(0x200 ≤ 79) ∧ ¬(80 < 80) := by
  simp only [List.length_replicate]
  omega

theorem witness_OverlongImageChangesNothing : 3584 < (List.replicate 3585 0xFF#8).length := by simp only [List.length_replicate]; omega

/-- At the bounds: a full stack of the highest return address, the highest `pc`, a cell at the last address, an operation issued. -/
def atBounds : State :=
  { State.reset with
    stack := List.replicate 16 0x1000#16, pc := 0x10FE#16, mem := [(4095, 1#8)], vblank := .waitingForDraw,
    schedule := [.frameBoundary] }

theorem witness_EveryStepKeepsTheInvariant : atBounds.Inv ∧ ∃ t, step atBounds = .next t := by
  refine ⟨⟨⟨by decide, by decide, by decide⟩, fun _ => ⟨by decide, fun a ha => ?_, ?_, fun h => ?_⟩⟩, _, rfl⟩
  · have : a = 0x1000#16 := List.eq_of_mem_replicate ha
    subst this
    decide
  · show (0x10FE#16 : Word).toNat ≤ 0x10FE
    decide
  · exact absurd h (by decide)

/-- The two cases of the conclusion: a step, and a load of another configuration. -/
theorem witness_OnlyALoadChangesTheConfiguration :
    (∃ t, step { State.reset with schedule := [.frameBoundary] } = .next t ∧ t.cfg = State.reset.cfg) ∧
    ∃ t, step { State.reset with schedule := [.load { defaultConfig with stackDepth := 1 } []] } = .next t ∧
      t.cfg ≠ State.reset.cfg :=
  ⟨⟨_, rfl, rfl⟩, _, rfl, by decide⟩

theorem witness_CanonicalMemoriesThatReadTheSameAreEqual :
    Memory.wf (fun _ => 0#8) [(0, 1#8), (4095, 2#8)] = true ∧
    ∀ a, Memory.read (fun _ => 0#8) [(0, 1#8), (4095, 2#8)] a = Memory.read (fun _ => 0#8) [(0, 1#8), (4095, 2#8)] a :=
  ⟨by decide, fun _ => rfl⟩

/-! ### Control flow -/

/-- The key matches; another key; no key. -/
theorem witness_KeySkips :
    (∃ k, ({ State.reset.setV 5 15#8 with key := some 15 } : State).key = some k ∧
      k.val = (({ State.reset.setV 5 15#8 with key := some 15 } : State).getV 5).toNat) ∧
    (∀ k, ({ State.reset.setV 5 0x1F#8 with key := some 15 } : State).key = some k →
      k.val ≠ (({ State.reset.setV 5 0x1F#8 with key := some 15 } : State).getV 5).toNat) ∧
    (∀ k, State.reset.key = some k → k.val ≠ (State.reset.getV 5).toNat) :=
  ⟨⟨15, rfl, by decide⟩, fun k h => by cases h; decide, fun k h => by cases h⟩

/-- The register named by the address, and V0. -/
theorem witness_JumpsSetThePc :
    (15 : Reg).val = (if (session quirksSchip).cfg.quirks.jumpVx then (0xFFF#12).toNat / 256 else 0) ∧
    (0 : Reg).val = (if (session quirksChip8).cfg.quirks.jumpVx then (0xFFF#12).toNat / 256 else 0) := by decide

/-- One entry short of full, and full. -/
theorem witness_CallPushesTheReturnAddress :
    ({ State.reset with stack := List.replicate 15 0x202#16 } : State).stack.length ≠ State.reset.cfg.stackDepth ∧
    ({ State.reset with stack := List.replicate 16 0x202#16 } : State).stack.length = State.reset.cfg.stackDepth := by decide

theorem witness_RetPopsThePc :
    (∃ a rest, ({ State.reset with stack := [0x20C#16] } : State).stack = a :: rest) ∧ State.reset.stack = [] :=
  ⟨⟨_, _, rfl⟩, rfl⟩

/-- The first and last words of the family, and one between the two fixed words. -/
theorem witness_NativeCallAlwaysHalts :
    ((0x0000#16 : Word).toNat / 4096 = 0 ∧ 0x0000#16 ≠ 0x00E0#16 ∧ 0x0000#16 ≠ 0x00EE#16) ∧
    ((0x00E1#16 : Word).toNat / 4096 = 0 ∧ 0x00E1#16 ≠ 0x00E0#16 ∧ 0x00E1#16 ≠ 0x00EE#16) ∧
    ((0x0FFF#16 : Word).toNat / 4096 = 0 ∧ 0x0FFF#16 ≠ 0x00E0#16 ∧ 0x0FFF#16 ≠ 0x00EE#16) := by decide

/-! ### Registers and arithmetic -/

/-- With the quirk, without it, and each with VF as the destination. -/
theorem witness_LogicalOperationsAndTheirFlag :
    ¬((session quirksChip8).cfg.quirks.vfReset = true ∧ (14 : Reg) = vf) ∧
    ¬((session quirksSchip).cfg.quirks.vfReset = true ∧ (15 : Reg) = vf) ∧
    (session quirksChip8).cfg.quirks.vfReset = true := by decide

/-- A destination that is not VF, for ADD, SUB, SUBN, SHR and SHL. -/
theorem witness_AddWritesTheCarry : (14 : Reg) ≠ vf := by decide
theorem witness_SubtractionsWriteNoBorrow : (14 : Reg) ≠ vf := by decide

/-- Both sources. -/
theorem witness_ShiftsWriteTheBitShiftedOut :
    (14 : Reg) ≠ vf ∧
    0x81#8 = (if ((session quirksSchip).setV 1 0x81#8).cfg.quirks.shiftSrc then ((session quirksSchip).setV 1 0x81#8).getV 2
      else ((session quirksSchip).setV 1 0x81#8).getV 1) ∧
    0x40#8 = (if ((session quirksChip8).setV 2 0x40#8).cfg.quirks.shiftSrc then ((session quirksChip8).setV 2 0x40#8).getV 2
      else ((session quirksChip8).setV 2 0x40#8).getV 1) := by decide

/-! ### Index register and memory -/

/-- `I + 1` for the state with `I` at `i` and V2 at 1, under the overflow policy `p`. -/
def indexAt (i : Word) (p : IOverflow) : State :=
  ({ State.reset with idx := i, cfg := { defaultConfig with iOverflow := p } } : State).setV 2 1#8

/-- The greatest sum that fits, and the least that does not, under each policy. -/
theorem witness_AddToIndex :
    (indexAt 0xFFFE#16 .fault).idx.toNat + ((indexAt 0xFFFE#16 .fault).getV 2).toNat ≤ 0xFFFF ∧
    (0xFFFF < (indexAt 0xFFFF#16 .wrap).idx.toNat + ((indexAt 0xFFFF#16 .wrap).getV 2).toNat ∧
      (indexAt 0xFFFF#16 .wrap).cfg.iOverflow = .wrap) ∧
    (0xFFFF < (indexAt 0xFFFF#16 .fault).idx.toNat + ((indexAt 0xFFFF#16 .fault).getV 2).toNat ∧
      (indexAt 0xFFFF#16 .fault).cfg.iOverflow = .fault) := by decide

/-- The last place the three digits fit; the third digit out of range, and the first. -/
theorem witness_BcdWritesThreeDigits :
    (0xFFD#16 : Word).toNat + 2 < 4096 ∧ (2 ≤ 2 ∧ FirstOutOfRange (0xFFE#16 : Word).toNat 2) ∧
    (0 ≤ 2 ∧ FirstOutOfRange (0x1000#16 : Word).toNat 0) := by unfold FirstOutOfRange; decide

/-- The sixteen registers end at the last byte of memory, whether `I` advances or not. -/
theorem witness_BulkStore : (0xFF0#16 : Word).toNat + (15 : Reg).val < 4096 := by decide
theorem witness_BulkLoad : (0xFFF#16 : Word).toNat + (0 : Reg).val < 4096 := by decide
theorem witness_BulkLoadUndoesBulkStore : (0xFF0#16 : Word).toNat + (15 : Reg).val < 4096 ∧ (15 : Reg).val ≤ (15 : Reg).val := by decide

/-- The last transfer out of range, and the first. -/
theorem witness_BulkTransferOutOfRangeHalts :
    (15 ≤ (15 : Reg).val ∧ FirstOutOfRange (0xFF1#16 : Word).toNat 15) ∧
    (0 ≤ (15 : Reg).val ∧ FirstOutOfRange (0xFFF0#16 : Word).toNat 0) := by unfold FirstOutOfRange; decide

theorem witness_StoredBytesAreFetched :
    (0xFF0#16 : Word).toNat + (15 : Reg).val < 4096 ∧ (15 : Reg).val = (14 : Reg).val + 1 ∧ (15 : Reg).val ≤ (15 : Reg).val := by decide

/-! ### Display -/

/-- One pixel of a sprite at the lower right corner, without wrap; the rest of it lands nowhere. -/
theorem witness_covers (q : Quirks) (hq : q.wrap = false) : (spriteAt q 63#8 31#8 [(0x300, 0xFF#8)]).covers 1 2 1 63 31 := by
  refine ⟨0, 0, by decide, by decide, show (0xFF#8).getLsbD 7 = true by decide, ?_⟩
  rw [if_neg (show ¬(spriteAt q 63#8 31#8 [(0x300, 0xFF#8)]).cfg.quirks.wrap = true from fun h => absurd (hq.symm.trans h) (by decide))]
  exact ⟨rfl, rfl⟩

/-- The gate is open because the quirk is off, and because the slot is free; both row counts at the ends of the range; the sprite ends at the
last byte of memory. -/
theorem witness_DrawXorsTheSprite :
    (let s : State := { session quirksSchip with idx := 0xFF1#16 };
      s.drawable 15#4 ∧ s.gateOpen ∧ s.spriteInMemory (15#4).toNat) ∧
    (let s := spriteAt quirksChip8 63#8 31#8 [(0x300, 0xFF#8)];
      s.drawable 1#4 ∧ s.gateOpen ∧ s.spriteInMemory (1#4).toNat ∧ (∃ px py, s.covers 1 2 (1#4).toNat px py) ∧
        ∀ px py, s.covers 1 2 (1#4).toNat px py → s.grid.pixel px py = false) ∧
    (let s := { spriteAt quirksChip8 63#8 31#8 [(0x300, 0xFF#8)] with grid := clearGrid.toggle 63 31 };
      s.drawable 1#4 ∧ s.gateOpen ∧ s.spriteInMemory (1#4).toNat ∧ s.covers 1 2 (1#4).toNat 63 31 ∧ s.grid.pixel 63 31 = true) ∧
    (let s : State := { State.reset with cfg := { defaultConfig with dxy0Policy := .zeroRows } };
      s.drawable 0#4 ∧ s.gateOpen ∧ s.spriteInMemory (0#4).toNat ∧ ∀ px py, ¬s.covers 1 2 (0#4).toNat px py) := by
  have hclear : ∀ (px : Fin 64) (py : Fin 32), Grid.pixel clearGrid px py = false := by
    intro px py
    simp [Grid.pixel, clearGrid]
  refine ⟨⟨.inl (by decide), fun h => absurd h (by decide), fun r hr => ?_⟩,
    ⟨.inl (by decide), fun _ => rfl, fun r hr => ?_, ⟨63, 31, witness_covers _ rfl⟩, fun px py _ => hclear px py⟩,
    ⟨.inl (by decide), fun _ => rfl, fun r hr => ?_, witness_covers _ rfl, by decide⟩,
    ⟨.inr rfl, fun _ => rfl, fun r hr => absurd hr (Nat.not_lt_zero r), ?_⟩⟩
  · have : (0xFF1#16 : Word).toNat = 4081 := rfl
    have : (15#4).toNat = 15 := rfl
    show (0xFF1#16 : Word).toNat + r < 4096
    omega
  · have : (1#4).toNat = 1 := rfl
    show 768 + r < 4096
    omega
  · have : (1#4).toNat = 1 := rfl
    show 768 + r < 4096
    omega
  · rintro px py ⟨r, c, hr, _⟩
    exact absurd hr (Nat.not_lt_zero r)

/-- Both states of the gate that reject. -/
theorem witness_RejectedDrawRollsBack :
    (let s : State := { session quirksChip8 with vblank := .waitingForDraw }; s.drawable 15#4 ∧ ¬s.gateOpen) ∧
    (let s : State := { session quirksChip8 with vblank := .waitingForInterrupt }; s.drawable 1#4 ∧ ¬s.gateOpen) := by
  unfold State.drawable State.gateOpen
  decide

/-- The refused row count; the last row out of range, and the first. -/
theorem witness_DrawHalts :
    ¬State.reset.drawable 0#4 ∧
    (let s : State := { State.reset with idx := 0xFF2#16 };
      s.drawable 15#4 ∧ s.gateOpen ∧ 14 < (15#4).toNat ∧ FirstOutOfRange s.idx.toNat 14) ∧
    (let s : State := { State.reset with idx := 0xFFFF#16 };
      s.drawable 1#4 ∧ s.gateOpen ∧ 0 < (1#4).toNat ∧ FirstOutOfRange s.idx.toNat 0) := by
  unfold State.drawable State.gateOpen FirstOutOfRange
  decide

/-- The second flag is 1 from a clear grid; it is 0 where the sprite covers only pixels that were set. -/
theorem witness_DrawTwiceRestoresTheGrid :
    let s := spriteAt quirksSchip 63#8 31#8 [(0x300, 0xFF#8)]
    s.drawable 1#4 ∧ s.cfg.quirks.dispWait = false ∧ s.spriteInMemory (1#4).toNat ∧ (1 : Reg) ≠ vf ∧ (2 : Reg) ≠ vf ∧
    (∃ px py, s.covers 1 2 (1#4).toNat px py ∧ s.grid.pixel px py = false) ∧
    ∀ px py, State.covers { s with grid := clearGrid.toggle 63 31 } 1 2 (1#4).toNat px py →
      Grid.pixel (clearGrid.toggle 63 31) px py = true := by
  refine ⟨.inl (by decide), rfl, fun r hr => ?_, by decide, by decide, ⟨63, 31, witness_covers _ rfl, by decide⟩, ?_⟩
  · have : (1#4).toNat = 1 := rfl
    show 768 + r < 4096
    omega
  · rintro px py ⟨r, c, hr, hc, hb, hp⟩
    have h0 : r = 0 := by
      have : (1#4).toNat = 1 := rfl
      omega
    subst h0
    rw [if_neg (by decide)] at hp
    have h1 : px.val = 63 + c := hp.1
    have h2 : py.val = 31 + 0 := hp.2
    have h3 : px = 63 := Fin.ext (show px.val = 63 by omega)
    have h4 : py = 31 := Fin.ext (show py.val = 31 by omega)
    subst h3 h4
    decide

theorem witness_OneDrawPerFrame :
    let s : State := { session quirksChip8 with idx := 0xFF1#16 }
    s.halt = none ∧ s.cfg.quirks.dispWait = true ∧ s.vblank = .free ∧ s.drawable 15#4 ∧ s.drawable 1#4 ∧
    s.spriteInMemory (15#4).toNat := by
  refine ⟨rfl, rfl, rfl, .inl (by decide), .inl (by decide), fun r hr => ?_⟩
  have : (0xFF1#16 : Word).toNat = 4081 := rfl
  have : (15#4).toNat = 15 := rfl
  show (0xFF1#16 : Word).toNat + r < 4096
  omega

/-! ### Timers and keys -/

theorem witness_KeyWaitProtocol : State.reset.halt = none := rfl

/-! ### Rules about the whole machine -/

/-- Each piece of state, changed by one of its writers without a halt. -/
theorem witness_EachPieceOfStateHasItsWriters :
    (∃ t, exec (.storeRegs 0) { State.reset with idx := 0xFFF#16, v := Vector.replicate 16 1#8 } = .next t ∧ t.halt = none ∧
      t.readByte 0xFFF ≠ State.reset.readByte 0xFFF ∧ t.idx ≠ 0xFFF#16) ∧
    (∃ t, exec .cls { State.reset with grid := clearGrid.toggle 63 31 } = .next t ∧ t.halt = none ∧
      t.grid.pixel 63 31 ≠ (clearGrid.toggle 63 31).pixel 63 31 ∧ t.changed ≠ State.reset.changed) ∧
    (∃ t, exec (.call 0xFFF#12) .reset = .next t ∧ t.halt = none ∧ t.stack ≠ State.reset.stack ∧ t.pc ≠ State.reset.pc) ∧
    (∃ t, exec (.ldDtVx 1) (State.reset.setV 1 1#8) = .next t ∧ t.halt = none ∧ t.dt ≠ State.reset.dt) ∧
    (∃ t, exec (.ldStVx 1) (State.reset.setV 1 1#8) = .next t ∧ t.halt = none ∧ t.st ≠ State.reset.st) ∧
    (∃ t, exec (.ldVxK 15) .reset = .next t ∧ t.halt = none ∧ t.blocked ≠ State.reset.blocked ∧
      t.waitReg ≠ State.reset.waitReg) ∧
    (∃ t, exec (.drw 1 2 1#4) (session quirksChip8) = .next t ∧ t.halt = none ∧ t.vblank ≠ State.reset.vblank) :=
  ⟨⟨_, rfl, rfl, by decide⟩, ⟨_, rfl, rfl, by decide⟩, ⟨_, rfl, rfl, by decide⟩, ⟨_, rfl, rfl, by decide⟩,
    ⟨_, rfl, rfl, by decide⟩, ⟨_, rfl, rfl, by decide⟩, ⟨_, rfl, rfl, by decide⟩⟩

/-- Registers: the destination; the last a bulk load reaches; VF by the logical reset, by a carry and by a draw. -/
theorem witness_EachPieceOfStateHasItsWriters_registers :
    (∃ t, exec (.ldImm 15 1#8) .reset = .next t ∧ t.halt = none ∧ t.getV 15 ≠ State.reset.getV 15) ∧
    (∃ t, exec (.loadRegs 4) .reset = .next t ∧ t.halt = none ∧ t.getV 4 ≠ State.reset.getV 4) ∧
    (∃ t, exec (.orReg 0 0) ((session quirksChip8).setV 15 1#8) = .next t ∧ t.halt = none ∧ t.getV 15 ≠ 1#8) ∧
    (∃ t, exec (.addReg 0 0) (State.reset.setV 0 0x80#8) = .next t ∧ t.halt = none ∧ t.getV 15 ≠ State.reset.getV 15) ∧
    (∃ t, exec (.drw 0 0 1#4) { session quirksChip8 with grid := clearGrid.toggle 0 0 } = .next t ∧ t.halt = none ∧
      t.getV 15 ≠ State.reset.getV 15) :=
  ⟨⟨_, rfl, rfl, by decide⟩, ⟨_, rfl, rfl, by decide⟩, ⟨_, rfl, rfl, by decide⟩, ⟨_, rfl, rfl, by decide⟩,
    ⟨_, rfl, rfl, by decide⟩⟩

/-- `pc`: a return, a jump, a skip at the top of the address range, and a rejected draw at its foot, where both wrap. -/
theorem witness_EachPieceOfStateHasItsWriters_pc :
    (∃ t, exec .ret { State.reset with stack := [0xFFF#16] } = .next t ∧ t.halt = none ∧ t.pc ≠ State.reset.pc) ∧
    (∃ t, exec (.jpV0 0xFFF#12) .reset = .next t ∧ t.halt = none ∧ t.pc ≠ State.reset.pc) ∧
    (∃ t, exec (.seReg 0 0) { State.reset with pc := 0xFFFF#16 } = .next t ∧ t.halt = none ∧ t.pc ≠ 0xFFFF#16) ∧
    (∃ t, exec (.drw 0 0 1#4) { session quirksChip8 with vblank := .waitingForDraw, pc := 0#16 } = .next t ∧ t.halt = none ∧
      t.pc ≠ 0#16) :=
  ⟨⟨_, rfl, rfl, by decide⟩, ⟨_, rfl, rfl, by decide⟩, ⟨_, rfl, rfl, by decide⟩, ⟨_, rfl, rfl, by decide⟩⟩

theorem witness_IdleEngineStaysIdle : lastWord.idleEnd := ⟨rfl, 0xFFE#12, rfl, rfl⟩

end Sys2Proof.Tests
end

section
/-! SUPPORT. Which instructions write each piece of state: the table `Writes` read by piece, from which the whole-machine rule on
writers follows (10_state.md section 2). -/

namespace Sys2Proof.Machine

variable {s t : State} {i : Instr}

/-! ### The writers of each piece -/

/-- The writers of `V[r]`: its destination forms, a bulk load that reaches it, and, of VF, the instructions that write a flag. -/
theorem Writes.reg {r : Reg} (h : Writes s i (.reg r)) :
    (∃ nn, i = .ldImm r nn ∨ i = .addImm r nn ∨ i = .rnd r nn) ∨ (∃ y, i = .ldReg r y) ∨ i = .ldVxDt r ∨
      (∃ x, i = .loadRegs x ∧ r.val ≤ x.val) ∨
      (∃ x y, (i = .orReg x y ∨ i = .andReg x y ∨ i = .xorReg x y) ∧ (r = x ∨ (r = vf ∧ s.cfg.quirks.vfReset = true))) ∨
      (∃ x y, (i = .addReg x y ∨ i = .sub x y ∨ i = .shr x y ∨ i = .subn x y ∨ i = .shl x y) ∧ (r = x ∨ r = vf)) ∨
      (∃ x y n, i = .drw x y n ∧ r = vf) := by
  cases i with
  | ldImm x _ | addImm x _ | rnd x _ | ldReg x _ | ldVxDt x =>
    obtain rfl : r = x := Piece.reg.inj h
    simp
  | loadRegs x =>
    have hr : r.val ≤ x.val := by simpa [Writes] using h
    simpa using hr
  | orReg x _ | andReg x _ | xorReg x _ =>
    have hr : r = x ∨ (s.cfg.quirks.vfReset = true ∧ r = vf) := by simpa [Writes] using h
    simpa [and_comm] using hr
  | addReg x _ | sub x _ | shr x _ | subn x _ | shl x _ =>
    have hr : r = x ∨ r = vf := by simpa [Writes] using h
    simpa using hr
  | drw _ _ _ =>
    have hr : r = vf := by simpa [Writes] using h
    simpa using hr
  | _ => simp [Writes] at h

theorem Writes.cell {a : Nat} (h : Writes s i (.cell a)) : ∃ x, i = .ldB x ∨ i = .storeRegs x := by
  cases i with
  | ldB x => exact ⟨x, .inl rfl⟩
  | storeRegs x => exact ⟨x, .inr rfl⟩
  | _ => simp [Writes] at h

theorem Writes.pixel {px : Fin 64} {py : Fin 32} (h : Writes s i (.pixel px py)) : i = .cls ∨ ∃ x y n, i = .drw x y n := by
  cases i with
  | cls => exact .inl rfl
  | drw x y n => exact .inr ⟨x, y, n, rfl⟩
  | _ => simp [Writes] at h

theorem Writes.changed (h : Writes s i .changed) : i = .cls ∨ ∃ x y n, i = .drw x y n := by
  cases i with
  | cls => exact .inl rfl
  | drw x y n => exact .inr ⟨x, y, n, rfl⟩
  | _ => simp [Writes] at h

theorem Writes.stack (h : Writes s i .stack) : i = .ret ∨ ∃ nnn, i = .call nnn := by
  cases i with
  | ret => exact .inl rfl
  | call nnn => exact .inr ⟨nnn, rfl⟩
  | _ => simp [Writes] at h

theorem Writes.dt (h : Writes s i .dt) : ∃ x, i = .ldDtVx x := by
  cases i with
  | ldDtVx x => exact ⟨x, rfl⟩
  | _ => simp [Writes] at h

theorem Writes.st (h : Writes s i .st) : ∃ x, i = .ldStVx x := by
  cases i with
  | ldStVx x => exact ⟨x, rfl⟩
  | _ => simp [Writes] at h

theorem Writes.keyWait (h : Writes s i .keyWait) : ∃ x, i = .ldVxK x := by
  cases i with
  | ldVxK x => exact ⟨x, rfl⟩
  | _ => simp [Writes] at h

theorem Writes.vblank (h : Writes s i .vblank) : ∃ x y n, i = .drw x y n := by
  cases i with
  | drw x y n => exact ⟨x, y, n, rfl⟩
  | _ => simp [Writes] at h

theorem Writes.idx (h : Writes s i .idx) :
    (∃ nnn, i = .ldI nnn) ∨ ∃ x, i = .addI x ∨ i = .ldF x ∨ i = .storeRegs x ∨ i = .loadRegs x := by
  cases i with
  | ldI nnn => exact .inl ⟨nnn, rfl⟩
  | addI x | ldF x | storeRegs x | loadRegs x => exact .inr ⟨x, by simp⟩
  | _ => simp [Writes] at h

/-- No instruction that does not end the session writes the halt record. -/
theorem not_writes_halt : ¬Writes s i .halt := by
  cases i <;> simp [Writes]

/-! ### From the table to the execution -/

/-- The execution of an instruction that does not halt changes only what that instruction writes. -/
theorem exec_sameBut_of_running (h : exec i s = .next t) (hrun : t.halt = none) : SameBut (Writes s i) s t := by
  rcases exec_writes h with ⟨e, rfl⟩ | hw
  · simp at hrun
  · exact hw

/-- A skip that moves `pc` moves it 2 on (41_control_flow.md R160). -/
theorem State.skipIf_pc_of_ne {c : Bool} (h : (s.skipIf c).pc ≠ s.pc) : (s.skipIf c).pc = s.pc + 2#16 := by
  cases c with
  | true => rfl
  | false => exact absurd rfl h

/-- A draw that moves `pc` without a halt is one a closed gate rejected: `pc` goes 2 back, to the draw (44_display.md R233). -/
theorem execDrw_pc_of_ne {x y : Reg} {n : BitVec 4} (h : execDrw x y n s = .next t) (hrun : t.halt = none) (hpc : t.pc ≠ s.pc) :
    ¬s.gateOpen ∧ t.pc = s.pc - 2#16 := by
  rcases execDrw_cases h with ⟨e, rfl⟩ | ⟨hg, vb, rfl⟩ | ⟨vb, rows, _, rfl⟩
  · simp at hrun
  · exact ⟨hg, rfl⟩
  · exact absurd rfl hpc

/-- The instructions that move `pc` from the address after their word, and how far the skips and a rejected draw move it. -/
theorem exec_pc_of_ne (h : exec i s = .next t) (hrun : t.halt = none) (hpc : t.pc ≠ s.pc) :
    i = .ret ∨ (∃ nnn, i = .jp nnn ∨ i = .call nnn ∨ i = .jpV0 nnn) ∨
      ((∃ x y nn, i = .seImm x nn ∨ i = .sneImm x nn ∨ i = .seReg x y ∨ i = .sneReg x y ∨ i = .skp x ∨ i = .sknp x) ∧
        t.pc = s.pc + 2#16) ∨
      ((∃ x y n, i = .drw x y n) ∧ ¬s.gateOpen ∧ t.pc = s.pc - 2#16) := by
  cases i with
  | ret => exact .inl rfl
  | jp nnn | call nnn | jpV0 nnn => exact .inr (.inl ⟨nnn, by simp⟩)
  | seImm _ _ | sneImm _ _ | seReg _ _ | sneReg _ _ | skp _ | sknp _ =>
    cases h
    exact .inr (.inr (.inl ⟨by simp, State.skipIf_pc_of_ne hpc⟩))
  | drw x y n => exact .inr (.inr (.inr ⟨⟨x, y, n, rfl⟩, execDrw_pc_of_ne h hrun hpc⟩))
  | _ => exact absurd ((exec_sameBut_of_running h hrun).pc (by simp [Writes])) hpc

/-- Settles O53: what changed was written (`exec_sameBut_of_running`), and each piece has its writers; for `pc`, with the amounts. -/
theorem eachPieceOfStateHasItsWriters : Obligations.EachPieceOfStateHasItsWriters := by
  intro i s t h hrun
  have hw := exec_sameBut_of_running h hrun
  refine ⟨fun r hr => (not_imp_comm.mp (hw.reg r) hr).reg, exec_pc_of_ne h hrun, ?cell, ?display,
    fun hs => (not_imp_comm.mp hw.stack hs).stack, fun hd => (not_imp_comm.mp hw.dt hd).dt,
    fun hs => (not_imp_comm.mp hw.st hs).st, fun hk => (not_imp_comm.mp hw.keyWait (not_and_or.mpr hk)).keyWait,
    fun hv => (not_imp_comm.mp hw.vblank hv).vblank, fun hi => (not_imp_comm.mp hw.idx hi).idx,
    hw.halt not_writes_halt, hw.cfg⟩
  case cell =>
    rintro ⟨a, ha⟩
    exact (not_imp_comm.mp (hw.cell a) ha).cell
  case display =>
    rintro (⟨px, py, hp⟩ | hc)
    · exact (not_imp_comm.mp (hw.pixel px py) hp).pixel
    · exact (not_imp_comm.mp hw.changed hc).changed

end Sys2Proof.Machine
end

section
/-! SUPPORT. The word the fetch reads, byte by byte (20_memory.md R64). -/

namespace Sys2Proof.Machine

/-! ### The bits of the word at `pc` -/

/-- Bits 15 to 8 of the word at `pc` are the byte at `pc` (20_memory.md R64). -/
theorem State.nextWord_getLsbD_high (s : State) (i : Nat) :
    s.nextWord.getLsbD (8 + i) = (s.readByte s.pc.toNat).getLsbD i := by
  rw [State.nextWord, wordOfBytes_getLsbD, if_neg (by omega), Nat.add_sub_cancel_left]

/-- Bits 7 to 0 of the word at `pc` are the byte at `pc + 1` (20_memory.md R64). -/
theorem State.nextWord_getLsbD_low (s : State) {i : Nat} (hi : i < 8) :
    s.nextWord.getLsbD i = (s.readByte (s.pc.toNat + 1)).getLsbD i := by
  rw [State.nextWord, wordOfBytes_getLsbD, if_pos hi]

/-- Settles O6: the run of two reads at `pc` does not raise (`State.fetchBytes_eq`), and the word joins its two bytes high byte first. -/
theorem fetchIsBigEndian : Obligations.FetchIsBigEndian := by
  intro s hpc
  have hfetch : s.pc.toNat + 2 ≤ memSize := hpc
  refine ⟨?bytes, fun i _ => s.nextWord_getLsbD_high i, fun _ hi => s.nextWord_getLsbD_low hi, rfl⟩
  case bytes => rw [State.fetchBytes_eq, if_pos hfetch]

end Sys2Proof.Machine
end

section
/-! SUPPORT. The native-call family of words, and the word its instruction names (30_encoding.md R94, R97). -/

namespace Sys2Proof

variable {w : Word}

theorem nnnField_eq_setWidth (w : Word) : nnnField w = w.setWidth 12 :=
  (BitVec.setWidth_eq_extractLsb' (by decide)).symm

theorem opField_eq_zero (h : w.toNat / 4096 = 0) : opField w = 0#4 :=
  BitVec.eq_of_toNat_eq ((opField_toNat w).trans h)

/-- First nibble 0, the two fixed words apart, is the native-call family (30_encoding.md R94 step 3). -/
theorem decodeWord_eq_sys (h : opField w = 0#4) (hcls : w ≠ 0x00E0#16) (hret : w ≠ 0x00EE#16) :
    decodeWord w = .ok (.sys (nnnField w)) := by
  rw [decodeWord_byOp hcls hret, decodeByOp, h]
  rfl

/-- The native call with a word's low twelve bits encodes to that word: the top nibble is the family's 0. -/
theorem encode_sys_nnnField (h : opField w = 0#4) : encode (.sys (nnnField w)) = w := by
  rw [encode, ← h, formNnn_fields]

end Sys2Proof
end

section
/-! SUPPORT. How an instruction that raises ends, and the native call and the return (41_control_flow.md R161, R162). -/

namespace Sys2Proof.Machine

/-! ### Fatal errors, and frames of the call stack -/

/-- An instruction that raises ends the session with its own word and address in the record (60_exceptions.md R301). -/
theorem State.conclude_error_halts (s : State) (i : Instr) (e : Raise) :
    Halts (s.conclude (encode i) (.error e)) (s.record i e.kind e.memAddr) :=
  ⟨_, s.conclude_error (encode i) e, s.raise_halt (encode i) e⟩

theorem State.pop_nil {s : State} (h : s.stack = []) : s.pop = .error { kind := .stackUnderflow, memAddr := none } := by
  rw [State.pop, h]

theorem SameBut.setStack {P : Piece → Prop} (s : State) (st : List Word) (h : P .stack) : SameBut P s { s with stack := st } := by
  constructor
  case stack => exact fun hn => absurd h hn
  all_goals intros; simp [State.getV, State.readByte]

/-! ### The native call -/

theorem exec_sys_halts (nnn : BitVec 12) (s : State) :
    Halts (exec (.sys nnn) s) (s.record (.sys nnn) .nativeCallUnimplemented none) :=
  s.conclude_error_halts (.sys nnn) { kind := .nativeCallUnimplemented, memAddr := none }

/-- Settles O29: the word decodes to SYS, and SYS's record names the word it encodes to, which is the word decoded. -/
theorem nativeCallAlwaysHalts : Obligations.NativeCallAlwaysHalts := by
  intro s w hop hcls hret
  have h0 : opField w = 0#4 := opField_eq_zero hop
  have hhalt := exec_sys_halts (nnnField w) s
  rw [State.record, encode_sys_nnnField h0] at hhalt
  rw [← nnnField_eq_setWidth]
  exact ⟨decodeWord_eq_sys h0 hcls hret, hhalt⟩

/-! ### The return -/

theorem exec_ret_of_cons {s : State} {a : Word} {rest : List Word} (h : s.stack = a :: rest) :
    exec .ret s = .next (State.setPc { s with stack := rest } a) := by
  show execRet s = _
  rw [execRet, s.pop_ok.mpr ⟨rest, h, rfl⟩]
  rfl

theorem exec_ret_halts {s : State} (h : s.stack = []) : Halts (exec .ret s) (s.record .ret .stackUnderflow none) := by
  show Halts (execRet s) _
  rw [execRet, State.pop_nil h]
  exact s.conclude_error_halts .ret { kind := .stackUnderflow, memAddr := none }

/-- Settles O28: by the two cases of the pop, whose stack and `pc` writes make up the frame. -/
theorem retPopsThePc : Obligations.RetPopsThePc := by
  refine fun s => ⟨fun a rest h => ⟨_, exec_ret_of_cons h, rfl, rfl, ?frame⟩, exec_ret_halts⟩
  case frame => exact (SameBut.setStack s rest (.inr rfl)).trans (SameBut.setPc _ a (.inl rfl))

end Sys2Proof.Machine
end

section
/-! SUPPORT. What a register reads after a logical operation with its flag reset, and after a result written with its flag
(42_alu.md R183 to R186). -/

namespace Sys2Proof.Machine

/-! ### The logical operations -/

/-- A result, then the flag reset: under `vf_reset` the zero in VF is written last, over a result in VF (42_alu.md R183). -/
theorem State.setV_logicalFlagReset_getV (s : State) (x r : Reg) (b : Byte) :
    (s.setV x b).logicalFlagReset.getV r =
      if s.cfg.quirks.vfReset = true ∧ r = vf then 0#8 else if r = x then b else s.getV r := by
  rw [State.logicalFlagReset_eq, State.setV_cfg]
  cases s.cfg.quirks.vfReset <;> simp [State.setV_getV]

theorem SameBut.setV_logicalFlagReset (s : State) (x : Reg) (b : Byte) :
    SameBut (fun p => p = .reg x ∨ (s.cfg.quirks.vfReset = true ∧ p = .reg vf)) s (s.setV x b).logicalFlagReset :=
  (SameBut.setV s x b (.inl rfl)).trans (SameBut.logicalFlagReset _ fun hq => .inr ⟨hq, rfl⟩)

/-- What OR, AND and XOR have in common, whatever their result `b`. -/
theorem gives_setV_logicalFlagReset (s : State) (x : Reg) (b : Byte) :
    Gives (.next (s.setV x b).logicalFlagReset) (fun t =>
      (¬(s.cfg.quirks.vfReset = true ∧ x = vf) → t.getV x = b) ∧
      (s.cfg.quirks.vfReset = true → t.getV vf = 0#8) ∧
      SameBut (fun p => p = .reg x ∨ (s.cfg.quirks.vfReset = true ∧ p = .reg vf)) s t) := by
  refine ⟨_, rfl, fun hx => ?result, fun hq => ?flag, SameBut.setV_logicalFlagReset s x b⟩
  case result => rw [State.setV_logicalFlagReset_getV, if_neg hx, if_pos rfl]
  case flag => rw [State.setV_logicalFlagReset_getV, if_pos ⟨hq, rfl⟩]

/-- Settles O32: the three operations differ in the result alone. -/
theorem logicalOperationsAndTheirFlag : Obligations.LogicalOperationsAndTheirFlag :=
  fun s x y => ⟨gives_setV_logicalFlagReset s x (s.getV x ||| s.getV y), gives_setV_logicalFlagReset s x (s.getV x &&& s.getV y),
    gives_setV_logicalFlagReset s x (s.getV x ^^^ s.getV y)⟩

/-! ### A result with its flag -/

@[simp] theorem State.setWithFlag_getV_flag (s : State) (x : Reg) (b f : Byte) : (s.setWithFlag x b f).getV vf = f := by
  rw [State.setWithFlag_getV, if_pos rfl]

/-- The result stands in a destination that the flag, written last, does not overwrite. -/
theorem State.setWithFlag_getV_result (s : State) {x : Reg} (b f : Byte) (hx : x ≠ vf) : (s.setWithFlag x b f).getV x = b := by
  rw [State.setWithFlag_getV, if_neg hx, if_pos rfl]

theorem carryFlag_toNat (a b : Byte) : (carryFlag a b).toNat = if 255 < a.toNat + b.toNat then 1 else 0 := by
  simp [carryFlag, flagByte_toNat]

/-- Settles O33: sum and carry are both taken from the old values, and the carry is written last. -/
theorem addWritesTheCarry : Obligations.AddWritesTheCarry := by
  intro s x y
  refine ⟨_, rfl, fun hx => ?sum, ?carry, SameBut.setWithFlag _ _ _ _ (.inl rfl) (.inr rfl)⟩
  case sum => rw [State.setWithFlag_getV_result s _ _ hx, BitVec.toNat_add]
  case carry => rw [State.setWithFlag_getV_flag, carryFlag_toNat]

end Sys2Proof.Machine
end

section
/-! SUPPORT. How a run of byte writes ends, and the three decimal digits of a register (43_index_memory.md R214, 60_exceptions.md R303). -/

namespace Sys2Proof.Machine

/-! ### Runs of byte writes -/

/-- Writes that all stay within memory are placed. -/
theorem State.writeBytes_inMemory (s : State) {a : Nat} {bs : List Byte} (h : a + bs.length ≤ memSize) :
    s.writeBytes a bs = .ok (s.placeBytes a bs) := by
  rw [State.writeBytes_eq, if_pos (.inr h)]

/-- The first address out of range is the start of the accesses, or the end of memory if they start below it. -/
theorem FirstOutOfRange.max_memSize {a r : Nat} (h : FirstOutOfRange a r) : max a memSize = a + r := by
  obtain ⟨hout, hbefore⟩ := h
  show max a 4096 = a + r
  cases r with
  | zero => exact Nat.max_eq_left hout
  | succ q =>
    have hlast : a + q < 4096 := hbefore q q.lt_succ_self
    omega

/-- Writes that leave memory raise at their first address out of range (60_exceptions.md R303). -/
theorem State.writeBytes_firstOutOfRange (s : State) {a r : Nat} {bs : List Byte} (hr : r < bs.length)
    (h : FirstOutOfRange a r) : s.writeBytes a bs = .error (outOfRange (a + r)) := by
  have hne : bs ≠ [] := List.ne_nil_of_length_pos (Nat.zero_lt_of_lt hr)
  have hpast : memSize < a + bs.length := Nat.lt_of_le_of_lt h.1 (Nat.add_lt_add_left hr a)
  rw [State.writeBytes_eq, if_neg (not_or.mpr ⟨hne, Nat.not_le_of_gt hpast⟩), h.max_memSize]

/-! ### The decimal digits -/

@[simp] theorem bcdDigits_length (b : Byte) : (bcdDigits b).length = 3 := rfl

/-- No digit overflows a byte, so the digits taken of the byte are those of its number (43_index_memory.md R214). -/
theorem bcdDigits_map_toNat (b : Byte) : (bcdDigits b).map BitVec.toNat = [b.toNat / 100, b.toNat / 10 % 10, b.toNat % 10] := by
  simp [bcdDigits]

/-- The digits placed at `a` are read back, each as a number. -/
theorem State.placeBytes_bcdDigits_toNat (s : State) (a : Nat) (b : Byte) (k : Nat) (hk : k < 3) :
    ((s.placeBytes a (bcdDigits b)).readByte (a + k)).toNat = [b.toNat / 100, b.toNat / 10 % 10, b.toNat % 10][k] := by
  simp only [State.placeBytes_readByte_inside _ _ _ k (bcdDigits_length b ▸ hk), ← bcdDigits_map_toNat, List.getElem_map]

/-- Three bytes placed at `a` change the cells `a`, `a + 1` and `a + 2` alone. -/
theorem SameBut.placeBytes_bcdDigits (s : State) (a : Nat) (b : Byte) :
    SameBut (fun p => p = .cell a ∨ p = .cell (a + 1) ∨ p = .cell (a + 2)) s (s.placeBytes a (bcdDigits b)) := by
  refine SameBut.placeBytes s a (bcdDigits b) fun k hk => ?_
  rw [bcdDigits_length] at hk
  obtain rfl | rfl | rfl : k = 0 ∨ k = 1 ∨ k = 2 := by omega
  · exact .inl rfl
  · exact .inr (.inl rfl)
  · exact .inr (.inr rfl)

theorem exec_ldB_of_inMemory {s : State} (x : Reg) (h : s.idx.toNat + 2 < 4096) :
    exec (.ldB x) s = .next (s.placeBytes s.idx.toNat (bcdDigits (s.getV x))) := by
  show execLdB x s = _
  have hfit : s.idx.toNat + (bcdDigits (s.getV x)).length ≤ memSize := h
  rw [execLdB, s.writeBytes_inMemory hfit, State.conclude_ok]

theorem exec_ldB_halts {s : State} (x : Reg) {r : Nat} (hr : r ≤ 2) (h : FirstOutOfRange s.idx.toNat r) :
    Halts (exec (.ldB x) s) (s.record (.ldB x) .addressOutOfRange (some (s.idx.toNat + r))) := by
  show Halts (execLdB x s) _
  have hdigit : r < (bcdDigits (s.getV x)).length := Nat.lt_succ_of_le hr
  rw [execLdB, s.writeBytes_firstOutOfRange hdigit h]
  exact s.conclude_error_halts (.ldB x) (outOfRange (s.idx.toNat + r))

/-- Settles O38: by the two ends of the run of three writes, whose bytes are the digits read back. -/
theorem bcdWritesThreeDigits : Obligations.BcdWritesThreeDigits := by
  refine fun s x => ⟨fun h => ⟨_, exec_ldB_of_inMemory x h, ?hundreds, ?tens, ?ones, SameBut.placeBytes_bcdDigits s _ _⟩,
    fun _ => exec_ldB_halts x⟩
  case hundreds => exact s.placeBytes_bcdDigits_toNat _ _ 0 (by decide)
  case tens => exact s.placeBytes_bcdDigits_toNat _ _ 1 (by decide)
  case ones => exact s.placeBytes_bcdDigits_toNat _ _ 2 (by decide)

end Sys2Proof.Machine
end

section
/-! SUPPORT. The frame boundary of a session that has not ended, and what a timer's tick does to its value (40_engine_cycle.md R136,
60_exceptions.md R309). -/

namespace Sys2Proof.Machine

/-! ### The timers at a frame boundary -/

/-- The floor at zero is the truncation of the subtraction: above zero the byte's subtraction does not wrap. -/
@[simp] theorem tick_toNat (t : Byte) : (tick t).toNat = t.toNat - 1 := by
  by_cases h : t = 0#8
  · subst h; rfl
  · have hpos : 1#8 ≤ t := by bv_omega
    rw [tick, if_neg h, BitVec.toNat_sub_of_le hpos]; rfl

theorem State.perform_frameBoundary_of_halt_none {s : State} (h : s.halt = none) :
    s.perform .frameBoundary = .next (State.timerTick { s with vblank := vblankRelease s.cfg s.vblank }) := by
  simp [State.perform, State.frameBoundary, h]

/-- Settles O13: the frame boundary of a session that has not ended ends with the timers' tick, which takes one from each timer (`tick_toNat`). -/
theorem frameBoundaryTicksTheTimers : Obligations.FrameBoundaryTicksTheTimers :=
  fun s h => ⟨_, State.perform_frameBoundary_of_halt_none h, tick_toNat s.dt, tick_toNat s.st⟩

end Sys2Proof.Machine
end

section
/-! SUPPORT. The decoder undoes the encoder on every well-formed instruction (30_encoding.md R94, R95), and the encoder the decoder on
every word that decodes. -/

namespace Sys2Proof

open Machine (IllegalWord)

/-! ### Decoding an encoded instruction -/

/-- A word that is put together from a first nibble other than 0 is decoded by it. -/
theorem decodeWord_formNnn {op : BitVec 4} (h : op ≠ 0#4) (nnn : BitVec 12) :
    decodeWord (formNnn op nnn) = decodeByOp (formNnn op nnn) :=
  decodeWord_of_op (by rwa [formNnn_opField])

theorem decodeWord_formXnn {op : BitVec 4} (h : op ≠ 0#4) (x : Reg) (nn : Byte) :
    decodeWord (formXnn op x nn) = decodeByOp (formXnn op x nn) :=
  decodeWord_formNnn h (nibbleOf x ++ nn)

theorem decodeWord_formXyn {op : BitVec 4} (h : op ≠ 0#4) (x y : Reg) (n : BitVec 4) :
    decodeWord (formXyn op x y n) = decodeByOp (formXyn op x y n) :=
  decodeWord_formXnn h x (nibbleOf y ++ n)

/-- The native call decodes to itself, but for the two addresses whose words are CLS and RET (30_encoding.md R97). -/
theorem decodeWord_encode_sys {nnn : BitVec 12} (hcls : nnn ≠ 0x0E0#12) (hret : nnn ≠ 0x0EE#12) :
    decodeWord (encode (.sys nnn)) = .ok (.sys nnn) := by
  have hne : ∀ {w : Word}, nnn ≠ nnnField w → formNnn 0#4 nnn ≠ w := by
    rintro w h rfl
    exact h (formNnn_nnnField _ _).symm
  have h := decodeWord_eq_sys (formNnn_opField 0#4 nnn) (hne hcls) (hne hret)
  rwa [formNnn_nnnField] at h

/-- Decoding the word of a well-formed instruction gives the instruction: every field is read where the encoder puts it. -/
theorem decodeWord_encode {i : Instr} (h : i.wf = true) : decodeWord (encode i) = .ok i := by
  cases i with
  | cls | ret => rfl
  | sys nnn =>
    obtain ⟨hcls, hret⟩ : nnn ≠ 0x0E0#12 ∧ nnn ≠ 0x0EE#12 := by simpa [Instr.wf] using h
    exact decodeWord_encode_sys hcls hret
  | jp nnn | call nnn | ldI nnn | jpV0 nnn =>
    rw [encode, decodeWord_formNnn (by decide)]
    simp [decodeByOp]
  | seImm x nn | sneImm x nn | ldImm x nn | addImm x nn | rnd x nn =>
    rw [encode, decodeWord_formXnn (by decide)]
    simp [decodeByOp]
  | seReg x y | sneReg x y | drw x y n =>
    rw [encode, decodeWord_formXyn (by decide)]
    simp [decodeByOp]
  | ldReg x y | orReg x y | andReg x y | xorReg x y | addReg x y | sub x y | shr x y | subn x y | shl x y =>
    rw [encode, decodeWord_formXyn (by decide)]
    simp [decodeByOp, decodeAlu]
  | skp x | sknp x =>
    rw [encode, decodeWord_formXnn (by decide)]
    simp [decodeByOp, decodeKey]
  | ldVxDt x | ldVxK x | ldDtVx x | ldStVx x | addI x | ldF x | ldB x | storeRegs x | loadRegs x =>
    rw [encode, decodeWord_formXnn (by decide)]
    simp [decodeByOp, decodeMisc]

/-- Settles O2: the two bytes are put together to the instruction's word, which `decodeWord_encode` decodes. -/
theorem encodeThenDecodeIsIdentity : Obligations.EncodeThenDecodeIsIdentity := by
  intro i rest h
  refine decode_ok.mpr ⟨?word, rfl⟩
  case word => rw [wordOfBytes_bytes, decodeWord_encode h]

/-- Settles O1: by running the decoder on the eleven words. -/
theorem opcodeMapWordsDecode : Obligations.OpcodeMapWordsDecode := by
  unfold Obligations.OpcodeMapWordsDecode
  decide

/-! ### Encoding a decoded word -/

theorem formNnn_of_op {w : Word} {op : BitVec 4} (h : (opField w).toNat = op.toNat) : formNnn op (nnnField w) = w := by
  rw [← BitVec.eq_of_toNat_eq h, formNnn_fields]

theorem formXnn_of_op {w : Word} {op : BitVec 4} (h : (opField w).toNat = op.toNat) :
    formXnn op (xField w) (nnField w) = w := by
  rw [← BitVec.eq_of_toNat_eq h, formXnn_fields]

theorem formXyn_of_op {w : Word} {op : BitVec 4} (h : (opField w).toNat = op.toNat) :
    formXyn op (xField w) (yField w) (nField w) = w := by
  rw [← BitVec.eq_of_toNat_eq h, formXyn_fields]

theorem formXyn_of_op_n {w : Word} {op n : BitVec 4} (h : (opField w).toNat = op.toNat) (hn : (nField w).toNat = n.toNat) :
    formXyn op (xField w) (yField w) n = w := by
  rw [← BitVec.eq_of_toNat_eq hn, formXyn_of_op h]

theorem formXnn_of_op_nn {w : Word} {op : BitVec 4} {nn : Byte} (h : (opField w).toNat = op.toNat) (hnn : nnField w = nn) :
    formXnn op (xField w) nn = w := by
  rw [← hnn, formXnn_of_op h]

theorem decodeAlu_ok {w : Word} {i : Instr} (hop : (opField w).toNat = 0x8) (h : decodeAlu w = .ok i) :
    i.wf = true ∧ encode i = w := by
  unfold decodeAlu at h
  split at h
  case h_10 => cases h
  all_goals
    next hn =>
      cases h
      exact ⟨rfl, formXyn_of_op_n hop hn⟩

theorem decodeKey_ok {w : Word} {i : Instr} (hop : (opField w).toNat = 0xE) (h : decodeKey w = .ok i) :
    i.wf = true ∧ encode i = w := by
  unfold decodeKey at h
  split_ifs at h with h1 h2
  · cases h; exact ⟨rfl, formXnn_of_op_nn hop h1⟩
  · cases h; exact ⟨rfl, formXnn_of_op_nn hop h2⟩

theorem decodeMisc_ok {w : Word} {i : Instr} (hop : (opField w).toNat = 0xF) (h : decodeMisc w = .ok i) :
    i.wf = true ∧ encode i = w := by
  unfold decodeMisc at h
  split_ifs at h
  all_goals
    next hnn =>
      cases h
      exact ⟨rfl, formXnn_of_op_nn hop hnn⟩

/-- A word decoded by its first nibble is the word of its instruction, if it is neither of the words with a row of their own. -/
theorem decodeByOp_ok {w : Word} {i : Instr} (hcls : w ≠ 0x00E0#16) (hret : w ≠ 0x00EE#16) (h : decodeByOp w = .ok i) :
    i.wf = true ∧ encode i = w := by
  unfold decodeByOp at h
  split at h
  case h_1 hop =>
    cases h
    have henc : encode (.sys (nnnField w)) = w := formNnn_of_op hop
    refine ⟨?_, henc⟩
    have hcls' : nnnField w ≠ 0x0E0#12 := fun ha => hcls (by rw [← henc, ha]; rfl)
    have hret' : nnnField w ≠ 0x0EE#12 := fun ha => hret (by rw [← henc, ha]; rfl)
    simp [Instr.wf, hcls', hret']
  case h_6 hop | h_10 hop =>
    split_ifs at h with hn
    cases h
    exact ⟨rfl, formXyn_of_op_n hop (congrArg BitVec.toNat hn)⟩
  case h_9 hop => exact decodeAlu_ok hop h
  case h_14 hop => cases h; exact ⟨rfl, formXyn_of_op hop⟩
  case h_15 hop => exact decodeKey_ok hop h
  case h_16 =>
    have hlt := (opField w).isLt
    simp only [imp_false] at *
    exact decodeMisc_ok (by omega) h
  case h_2 hop | h_3 hop | h_11 hop | h_12 hop => cases h; exact ⟨rfl, formNnn_of_op hop⟩
  case h_4 hop | h_5 hop | h_7 hop | h_8 hop | h_13 hop => cases h; exact ⟨rfl, formXnn_of_op hop⟩

/-- A word that decodes is the word of the instruction it decodes to, which is well-formed. -/
theorem decodeWord_ok {w : Word} {i : Instr} (h : decodeWord w = .ok i) : i.wf = true ∧ encode i = w := by
  unfold decodeWord at h
  split_ifs at h with hcls hret
  · cases h; exact ⟨rfl, hcls.symm⟩
  · cases h; exact ⟨rfl, hret.symm⟩
  · exact decodeByOp_ok hcls hret h

/-- Settles O3: along the decoder's order, each row's fixed nibbles matched and its operands read where the encoder puts them. -/
theorem decodeThenEncodeIsIdentity : Obligations.DecodeThenEncodeIsIdentity := fun _ _ => decodeWord_ok

/-! ### The words that do not decode -/

theorem decodeAlu_error_iff {w : Word} {e : DecodeError} :
    decodeAlu w = .error e ↔
      e = .illegalInstruction w ∧ w.toNat % 16 ∈ [0x8, 0x9, 0xA, 0xB, 0xC, 0xD, 0xF] := by
  rw [← nField_toNat]
  have hlt := (nField w).isLt
  unfold decodeAlu
  split
  case h_10 =>
    simp only [imp_false] at *
    have hrest : (nField w).toNat ∈ [0x8, 0x9, 0xA, 0xB, 0xC, 0xD, 0xF] := by
      simp only [List.mem_cons, List.not_mem_nil]
      omega
    simp [hrest, eq_comm]
  all_goals
    next hn => simp [hn]

theorem decodeKey_error_iff {w : Word} {e : DecodeError} :
    decodeKey w = .error e ↔ e = .illegalInstruction w ∧ w.toNat % 256 ∉ [0x9E, 0xA1] := by
  rw [← nnField_toNat]
  unfold decodeKey
  split_ifs <;> simp_all [BitVec.toNat_eq, eq_comm (b := e)]

theorem decodeMisc_error_iff {w : Word} {e : DecodeError} :
    decodeMisc w = .error e ↔
      e = .illegalInstruction w ∧ w.toNat % 256 ∉ [0x07, 0x0A, 0x15, 0x18, 0x1E, 0x29, 0x33, 0x55, 0x65] := by
  rw [← nnField_toNat]
  unfold decodeMisc
  split_ifs <;> simp_all [BitVec.toNat_eq, eq_comm (b := e)]

theorem nField_eq_zero_iff {w : Word} : nField w = 0#4 ↔ w.toNat % 16 = 0 := by
  rw [← nField_toNat]
  exact BitVec.toNat_eq

/-- A word is rejected by its first nibble exactly when it is in the table of illegal words (30_encoding.md R96). -/
theorem decodeByOp_error_iff {w : Word} {e : DecodeError} :
    decodeByOp w = .error e ↔ e = .illegalInstruction w ∧ IllegalWord w := by
  have hlt := (opField w).isLt
  unfold decodeByOp IllegalWord
  rw [← opField_toNat]
  split
  case h_6 hop | h_10 hop =>
    simp only [nField_eq_zero_iff]
    split_ifs with hn <;> simp [hop, hn, eq_comm]
  case h_9 hop => simp [hop, decodeAlu_error_iff]
  case h_15 hop => simp [hop, decodeKey_error_iff]
  case h_16 =>
    simp only [imp_false] at *
    have hop : (opField w).toNat = 0xF := by omega
    simp [hop, decodeMisc_error_iff]
  all_goals
    next hop => simp [hop]

/-- No word of the table has first nibble 0, where the two fixed words are. -/
theorem opField_ne_zero_of_illegalWord {w : Word} (h : IllegalWord w) : opField w ≠ 0#4 := by
  intro h0
  have hop : w.toNat / 4096 = 0 := by rw [← opField_toNat, h0]; rfl
  simp [IllegalWord, hop] at h

/-- A word is rejected exactly when it is in the table of illegal words, and the rejection names it (30_encoding.md R96). -/
theorem decodeWord_error_iff {w : Word} {e : DecodeError} :
    decodeWord w = .error e ↔ e = .illegalInstruction w ∧ IllegalWord w := by
  constructor
  · intro h
    rw [← decodeByOp_error_iff]
    unfold decodeWord at h
    split_ifs at h
    exact h
  · intro h
    rwa [decodeWord_of_op (opField_ne_zero_of_illegalWord h.2), decodeByOp_error_iff]

/-- Settles O4: the table has one line for each first nibble whose words are not all rows of the opcode map. -/
theorem illegalWordsAreExactlyTheTable : Obligations.IllegalWordsAreExactlyTheTable :=
  fun _ => ⟨fun h => decodeWord_error_iff.mpr ⟨rfl, h⟩, fun _ => decodeWord_error_iff.mp⟩

end Sys2Proof
end

section
/-! SUPPORT. What a step of the engine answers, by what it fetches, and the record of a fatal error in it (40_engine_cycle.md R131 to R133,
60_exceptions.md R301). -/

namespace Sys2Proof.Machine

variable {s t : State} {key : Option Reg} {rnd : Byte} {i : Instr}

/-! ### A step of the engine that runs -/

/-- A step whose fetched word decodes executes it, with the inputs in place and `pc` 2 further. -/
theorem State.perform_step_of_decode (hrun : s.runs) (hpc : s.pc.toNat + 1 < 4096) (hi : decodeWord s.nextWord = .ok i) :
    s.perform (.step key rnd) = exec i { s with key := key, rnd := rnd, pc := s.pc + 2#16 } := by
  show s.engineStep key rnd = _
  rw [s.engineStep_running hrun.1 hrun.2]
  exact State.fetchExecute_ok { s with key := key, rnd := rnd } hpc hi

/-- Settles O5: the operation is the oldest issued, or a step with free inputs, and the step runs the word it fetches. -/
theorem stepRunsTheDecodedInstruction : Obligations.StepRunsTheDecodedInstruction := by
  intro s i hrun hpc hi
  refine ⟨fun key rnd rest hs => ?issued, fun hs => ?free⟩
  case issued =>
    rw [step_cons s hs]
    exact State.perform_step_of_decode (s := { s with schedule := rest }) hrun hpc hi
  case free =>
    rw [step_nil s hs]
    exact State.perform_step_of_decode (s := { s with draws := s.draws + 1 }) hrun hpc hi

/-- Settles O7: the first of the two fetch addresses out of range is the larger of `pc` and the size of memory. -/
theorem fetchOutOfRangeHalts : Obligations.FetchOutOfRangeHalts := by
  intro s key rnd hrun hpc
  have hout : ¬s.pc.toNat + 2 ≤ memSize := by unfold memSize; omega
  have hfirst : max s.pc.toNat memSize = if s.pc.toNat < 4096 then s.pc.toNat + 1 else s.pc.toNat := by
    unfold memSize
    split <;> omega
  rw [← hfirst]
  refine ⟨_, ?_, State.raiseFetch_halt { s with key := key, rnd := rnd } (outOfRange (max s.pc.toNat memSize))⟩
  exact (s.engineStep_running hrun.1 hrun.2).trans (State.fetchExecute_outOfRange _ hout)

/-- The record of a raise after the fetch from `s` names the address fetched from. -/
theorem State.raise_halt_of_fetch (s : State) (key : Option Reg) (rnd : Byte) (w : Word) (e : Raise) :
    (State.raise { s with key := key, rnd := rnd, pc := s.pc + 2#16 } w e).halt =
      some { kind := e.kind, instrAddr := s.pc, word := some w, memAddr := e.memAddr } := by
  rw [State.raise_halt, State.instrAddr, BitVec.add_sub_cancel]

/-- Settles O8: an illegal word is one that does not decode. -/
theorem illegalWordHalts : Obligations.IllegalWordHalts := by
  intro s key rnd hrun hpc hw
  have he := decodeWord_error_iff.mpr ⟨rfl, hw⟩
  refine ⟨_, ?_, s.raise_halt_of_fetch key rnd s.nextWord { kind := .illegalInstruction, memAddr := none }⟩
  exact (s.engineStep_running hrun.1 hrun.2).trans (State.fetchExecute_illegal _ hpc he)

/-- An instruction that ends the session raised: nothing else writes the halt record. -/
theorem exec_raise_of_halt {h : HaltRecord} (he : exec i s = .next t) (hs : s.halt = none) (ht : t.halt = some h) :
    ∃ e, t = s.raise (encode i) e := by
  rcases exec_writes he with hr | hw
  · exact hr
  · rw [hw.halt not_writes_halt, hs] at ht
    cases ht

/-- Settles O9: the step raises in the decoder, which names the word, or in an instruction, which names the word it encodes to; that is
the word fetched (`decodeWord_ok`). -/
theorem faultNamesTheFetchedWord : Obligations.FaultNamesTheFetchedWord := by
  intro s t key rnd h hrun hpc hstep ht
  rcases s.engineStep_cases hstep with ⟨hstop, _⟩ | ⟨_, hout, _⟩ | ⟨_, _, i, hi, hexec⟩ | ⟨_, _, e, _, rfl⟩
  · simp [hrun.1, hrun.2] at hstop
  · exact absurd hpc (by unfold memSize at hout; omega)
  · obtain ⟨e, rfl⟩ := exec_raise_of_halt hexec hrun.1 ht
    rw [State.raise_halt_of_fetch, (decodeWord_ok hi).2] at ht
    cases ht
    exact ⟨rfl, rfl⟩
  · rw [State.raise_halt_of_fetch] at ht
    cases ht
    exact ⟨rfl, rfl⟩

/-! ### A step of the engine at its idle end -/

theorem State.controlState_eq_running (s : State) : s.controlState = .running ↔ s.runs := by
  unfold State.controlState State.runs
  cases s.halt <;> cases s.blocked <;> simp

/-- Settles O54: the bytes fetched decode to the jump they encode, and its target is the `pc` they were fetched from, so that the state
after the step is the state before it with the inputs in place. -/
theorem idleEngineStaysIdle : Obligations.IdleEngineStaysIdle := by
  intro s key rnd ⟨hrun, nnn, hfetch, hself⟩
  obtain ⟨hhalt, hblocked⟩ := s.controlState_eq_running.mp hrun
  have hdec : decode (encodeBytes (.jp nnn)) = .ok (.jp nnn, []) := encodeThenDecodeIsIdentity (.jp nnn) [] rfl
  have hstep : s.perform (.step key rnd) = .next { s with key := key, rnd := rnd } := by
    have hfetch' : State.fetchBytes { s with key := key, rnd := rnd } = .ok (encodeBytes (.jp nnn)) := hfetch
    show s.engineStep key rnd = _
    rw [s.engineStep_running hhalt hblocked, State.fetchExecute, hfetch']
    simp only [State.executeBytes, hdec]
    show execJp nnn _ = _
    rw [execJp, hself]
    rfl
  exact ⟨_, hstep, ⟨hrun, nnn, hfetch, hself⟩, SameBut.refl _ _⟩

end Sys2Proof.Machine
end

section
/-! SUPPORT. What each of the host's operations does, and the state a load leaves (40_engine_cycle.md R135 to R137,
70_reset_and_hazards.md R340, R341). -/

namespace Sys2Proof.Machine

variable {s t : State}

/-! ### Frames of the pieces no named update writes -/

theorem SameBut.setKeyWait {P : Piece → Prop} (s : State) (b : Bool) (r : Reg) (h : P .keyWait) :
    SameBut P s { s with blocked := b, waitReg := r } := by
  constructor
  case keyWait => exact fun hn => absurd h hn
  all_goals intros; simp [State.getV, State.readByte]

theorem SameBut.setVblank {P : Piece → Prop} (s : State) (vb : VBlank) (h : P .vblank) : SameBut P s { s with vblank := vb } := by
  constructor
  case vblank => exact fun hn => absurd h hn
  all_goals intros; simp [State.getV, State.readByte]

theorem SameBut.setDt {P : Piece → Prop} (s : State) (b : Byte) (h : P .dt) : SameBut P s { s with dt := b } := by
  constructor
  case dt => exact fun hn => absurd h hn
  all_goals intros; simp [State.getV, State.readByte]

theorem SameBut.setSt {P : Piece → Prop} (s : State) (b : Byte) (h : P .st) : SameBut P s { s with st := b } := by
  constructor
  case st => exact fun hn => absurd h hn
  all_goals intros; simp [State.getV, State.readByte]

theorem SameBut.timerTick {P : Piece → Prop} (s : State) (hdt : P .dt) (hst : P .st) : SameBut P s s.timerTick :=
  (SameBut.setDt s (tick s.dt) hdt).trans (SameBut.setSt _ (tick s.st) hst)

/-- New pixels and a new `changed` make a frame of those of them that differ. -/
theorem SameBut.setDisplay {P : Piece → Prop} (s : State) {g : Grid} {c : Bool} (hc : ¬P .changed → c = s.changed)
    (hp : ∀ px py, ¬P (.pixel px py) → g.pixel px py = s.grid.pixel px py) : SameBut P s { s with grid := g, changed := c } := by
  constructor
  case changed => exact hc
  case pixel => exact hp
  all_goals intros; simp [State.getV, State.readByte]

/-! ### While halted or blocked -/

/-- Settles O10: by the guards of the three operations. -/
theorem haltedOrBlockedEngineDoesNothing : Obligations.HaltedOrBlockedEngineDoesNothing := by
  refine fun s => ⟨fun hstop key rnd => ?step, fun hhalt => ⟨fun k => ?deliver, ?frame⟩⟩
  case step => exact hstop.elim s.engineStep_halted s.engineStep_blocked
  case deliver => simp [State.perform, State.deliverKey, hhalt]
  case frame => simp [State.perform, State.frameBoundary, hhalt]

/-! ### Key delivery, frame boundary, acknowledge -/

/-- A key delivered to a waiting engine goes into the register it waits with, and the wait is over. -/
theorem State.perform_deliverKey_of_blocked (k : Reg) (hhalt : s.halt = none) (hb : s.blocked = true) :
    s.perform (.deliverKey k) = .next { s.setV s.waitReg (BitVec.ofNat 8 k.val) with blocked := false } := by
  simp [State.perform, State.deliverKey, hhalt, hb]

theorem keyByte_toNat (k : Reg) : (BitVec.ofNat 8 k.val).toNat = k.val := by
  rw [BitVec.toNat_ofNat]
  omega

/-- Settles O12: the register is written, and then `blocked`. -/
theorem deliverKeyEndsTheWait : Obligations.DeliverKeyEndsTheWait := by
  refine fun s k => ⟨fun hhalt hb => ⟨_, s.perform_deliverKey_of_blocked k hhalt hb, ?key, rfl, rfl, ?frame⟩, fun hb => ?idle⟩
  case key => exact (congrArg BitVec.toNat (s.setV_getV_self s.waitReg _)).trans (keyByte_toNat k)
  case frame => exact (SameBut.setV s s.waitReg _ (.inl rfl)).trans (SameBut.setKeyWait _ false s.waitReg (.inr rfl))
  case idle => simp [State.perform, State.deliverKey, hb]

theorem vblankRelease_eq (c : Config) (vb : VBlank) :
    vblankRelease c vb = if vb = .waitingForDraw ∧ c.vblankReleaseWfd = false then .waitingForDraw else .free := by
  cases vb <;> cases h : c.vblankReleaseWfd <;> simp [vblankRelease, h]

/-- Settles O14: `vblank` is released (`vblankRelease_eq`), then the two timers tick. -/
theorem frameBoundaryReleasesTheDisplayWait : Obligations.FrameBoundaryReleasesTheDisplayWait := by
  intro s hhalt
  refine ⟨_, s.perform_frameBoundary_of_halt_none hhalt, vblankRelease_eq s.cfg s.vblank, ?frame⟩
  case frame =>
    refine (SameBut.setVblank s (vblankRelease s.cfg s.vblank) ?_).trans (SameBut.timerTick _ ?_ ?_) <;> simp

/-- Settles O15: the acknowledge writes the snapshot and `changed`. -/
theorem ackDisplayClearsChanged : Obligations.AckDisplayClearsChanged := by
  refine fun s => ⟨s.ackDisplay, rfl, rfl, rfl, ?frame⟩
  case frame => exact SameBut.setDisplay { s with snapshot := some s.grid } (fun hc => absurd rfl hc) fun _ _ _ => rfl

/-! ### The load -/

/-- The load of an image that fits places it in a fresh session. -/
theorem State.load_of_fits (s : State) (c : Config) {image : List Byte} (h : image.length ≤ 3584) :
    s.load c image = (s.freshSession c).placeBytes 0x200 image := if_pos h

/-- The load of an image that is too long changes nothing. -/
theorem State.load_of_overlong (s : State) (c : Config) {image : List Byte} (h : ¬image.length ≤ 3584) :
    s.load c image = s := if_neg h

/-- Settles O17: by the length check of the load. -/
theorem overlongImageChangesNothing : Obligations.OverlongImageChangesNothing :=
  fun s c _ h => congrArg Host.Outcome.next (s.load_of_overlong c (Nat.not_le_of_lt h))

theorem State.freshSession_readByte (s : State) (c : Config) (a : Nat) : (s.freshSession c).readByte a = resetByte c a := rfl

theorem State.freshSession_getV (s : State) (c : Config) (r : Reg) : (s.freshSession c).getV r = 0#8 := by
  simp [State.freshSession, State.getV]

/-- Memory after an image is placed in a fresh session: the image where it stands, the reset contents elsewhere. -/
theorem State.freshSession_placeBytes_readByte (s : State) (c : Config) (image : List Byte) (a : Nat) :
    ((s.freshSession c).placeBytes 0x200 image).readByte a =
      if 0x200 ≤ a ∧ a < 0x200 + image.length then image.getD (a - 0x200) 0#8 else resetByte c a := by
  split
  · next h =>
    obtain ⟨k, rfl⟩ := Nat.exists_eq_add_of_le h.1
    have hk : k < image.length := by omega
    rw [State.placeBytes_readByte_inside _ _ _ _ hk, Nat.add_sub_cancel_left, List.getD_eq_getElem _ _ hk]
  · next h => rw [State.placeBytes_readByte_outside _ _ _ (by omega), State.freshSession_readByte]

/-- Settles O16: placing the image in a fresh session writes memory alone, and the session's other pieces are at their reset values. -/
theorem loadEstablishesTheSession : Obligations.LoadEstablishesTheSession := by
  intro s c image h
  refine ⟨_, congrArg Host.Outcome.next (s.load_of_fits c h), s.freshSession_placeBytes_readByte c image, fun r => ?reg, ?_⟩
  case reg => rw [State.placeBytes_getV, State.freshSession_getV]
  simp [State.freshSession, loadAddr]

/-- Settles O18: nothing is listed in memory, so that every address reads as its reset contents; the rest is stated field by field. -/
theorem resetHoldsTheResetValues : Obligations.ResetHoldsTheResetValues := by
  refine ⟨fun a => rfl, fun r => ?reg, rfl, rfl, rfl, rfl, rfl, clearGrid_pixel, rfl, rfl, rfl, rfl, rfl⟩
  case reg => simp [State.reset, State.getV]

end Sys2Proof.Machine
end

section
/-! SUPPORT. What one transition keeps: the halt record and the configuration but for a load that fits, and the invariant
(10_state.md R26, R27, R32, R38; 60_exceptions.md R301). -/

namespace Sys2Proof.Machine

variable {s t : State} {i : Instr} {op : HostOp}

/-! ### Every transition answers a next state -/

theorem State.fetchExecute_next (s : State) : ∃ t, s.fetchExecute = .next t := by
  by_cases hpc : s.pc.toNat + 2 ≤ memSize
  · cases hd : decodeWord s.nextWord with
    | ok i =>
      rw [s.fetchExecute_ok hpc hd]
      exact exec_next i _
    | error e => exact ⟨_, s.fetchExecute_illegal hpc hd⟩
  · exact ⟨_, s.fetchExecute_outOfRange hpc⟩

theorem State.perform_next (s : State) (op : HostOp) : ∃ t, s.perform op = .next t := by
  cases op with
  | step key rnd =>
    show ∃ t, s.engineStep key rnd = .next t
    unfold State.engineStep
    split
    · exact ⟨s, rfl⟩
    · exact State.fetchExecute_next _
  | load _ _ | deliverKey _ | frameBoundary | ackDisplay | observe => exact ⟨_, rfl⟩

/-- Settles O21: a transition performs an operation, and each operation answers a next state. -/
theorem everyStepAnswersANextState : Obligations.EveryStepAnswersANextState := fun s => s.nextOp.2.perform_next s.nextOp.1

/-! ### From one operation to one transition -/

/-- The next operation of the schedule `sch` is `op`, and `rest` is left: the oldest issued, or a step when none is (log 3). -/
def Takes (sch : List HostOp) (op : HostOp) (rest : List HostOp) : Prop :=
  sch = op :: rest ∨ sch = [] ∧ rest = [] ∧ ∃ key rnd, op = .step key rnd

/-- One transition performs the next operation; of the engine's state, it is performed in the one before it. -/
theorem step_performs (h : step s = .next t) :
    ∃ op rest n, State.perform { s with schedule := rest, draws := n } op = .next t ∧ Takes s.schedule op rest := by
  rcases step_eq s with ⟨op, rest, hs, hop⟩ | ⟨hs, hop⟩
  · exact ⟨op, rest, s.draws, hop.symm.trans h, .inl hs⟩
  · refine ⟨_, [], s.draws + 1, ?_, .inr ⟨hs, rfl, Config.freeKey s.draws, Config.freeByte s.draws, rfl⟩⟩
    rw [← hs]
    exact hop.symm.trans h

/-- A load that is performed is the oldest operation issued. -/
theorem Takes.schedule_of_load {sch rest : List HostOp} {c : Config} {image : List Byte} (h : Takes sch (.load c image) rest) :
    sch = .load c image :: rest := by
  rcases h with h | ⟨_, _, _, _, hload⟩
  · exact h
  · cases hload

/-- The operation performed and those left are allowed when those issued are: a step brings no configuration. -/
theorem Takes.wf {sch rest : List HostOp} (h : Takes sch op rest) (hwf : sch.all HostOp.wf = true) :
    op.wf = true ∧ rest.all HostOp.wf = true := by
  rcases h with rfl | ⟨_, rfl, key, rnd, rfl⟩
  · rwa [List.all_cons, Bool.and_eq_true] at hwf
  · exact ⟨rfl, rfl⟩

/-! ### The halt record -/

/-- What an operation leaves of a halt record: the record, but for a load that fits. -/
theorem State.perform_halted {h : HaltRecord} (hop : s.perform op = .next t) (hs : s.halt = some h) :
    t.halt = some h ∨ ∃ c image, op = .load c image ∧ image.length ≤ 3584 ∧ t.halt = none := by
  have hsome : s.halt.isSome = true := by rw [hs]; rfl
  cases op with
  | load c image =>
    cases hop
    by_cases hfit : image.length ≤ 3584
    · refine .inr ⟨c, image, rfl, hfit, ?_⟩
      rw [s.load_of_fits c hfit, State.placeBytes_halt]
      rfl
    · rw [s.load_of_overlong c hfit]
      exact .inl hs
  | step key rnd =>
    cases (s.engineStep_halted hsome).symm.trans hop
    exact .inl hs
  | deliverKey k =>
    cases ((haltedOrBlockedEngineDoesNothing s).2 hsome).1 k |>.symm.trans hop
    exact .inl hs
  | frameBoundary =>
    cases ((haltedOrBlockedEngineDoesNothing s).2 hsome).2.symm.trans hop
    exact .inl hs
  | ackDisplay | observe => cases hop; exact .inl hs

/-- Settles O11: by the operation performed (`State.perform_halted`). -/
theorem onlyALoadClearsTheHalt : Obligations.OnlyALoadClearsTheHalt := by
  intro s t h hs hstep
  obtain ⟨op, rest, n, hop, hfrom⟩ := step_performs hstep
  rcases State.perform_halted hop hs with hkept | ⟨c, image, rfl, hfit, hclear⟩
  · exact .inl hkept
  · exact .inr ⟨c, image, rest, hfrom.schedule_of_load, hfit, hclear⟩

/-! ### The configuration -/

/-- An instruction changes neither the configuration nor what the host has issued, whether it raises or not. -/
theorem exec_cfg_schedule (h : exec i s = .next t) : t.cfg = s.cfg ∧ t.schedule = s.schedule := by
  rcases exec_writes h with ⟨e, rfl⟩ | hw
  · exact ⟨rfl, rfl⟩
  · exact ⟨hw.cfg, hw.schedule⟩

theorem State.engineStep_cfg {key : Option Reg} {rnd : Byte} (h : s.engineStep key rnd = .next t) : t.cfg = s.cfg := by
  rcases s.engineStep_cases h with ⟨_, rfl⟩ | ⟨_, _, rfl⟩ | ⟨_, _, i, _, hexec⟩ | ⟨_, _, e, _, rfl⟩
  · rfl
  · rfl
  · exact (exec_cfg_schedule hexec).1
  · rfl

theorem State.deliverKey_cases (s : State) (k : Reg) :
    s.deliverKey k = s ∨ s.deliverKey k = { s.setV s.waitReg (BitVec.ofNat 8 k.val) with blocked := false } := by
  unfold State.deliverKey
  split
  · exact .inl rfl
  · exact .inr rfl

theorem State.frameBoundary_cases (s : State) :
    s.frameBoundary = s ∨ s.frameBoundary = State.timerTick { s with vblank := vblankRelease s.cfg s.vblank } := by
  unfold State.frameBoundary
  split
  · exact .inl rfl
  · exact .inr rfl

/-- An operation keeps the configuration, but for a load that fits, which brings its own. -/
theorem State.perform_cfg (hop : s.perform op = .next t) :
    t.cfg = s.cfg ∨ ∃ image, op = .load t.cfg image ∧ image.length ≤ 3584 := by
  cases op with
  | load c image =>
    cases hop
    by_cases hfit : image.length ≤ 3584
    · refine .inr ⟨image, ?_, hfit⟩
      rw [s.load_of_fits c hfit, State.placeBytes_cfg]
      rfl
    · rw [s.load_of_overlong c hfit]
      exact .inl rfl
  | step key rnd => exact .inl (State.engineStep_cfg hop)
  | deliverKey k =>
    cases hop
    rcases s.deliverKey_cases k with h | h <;> exact .inl ((congrArg State.cfg h).trans rfl)
  | frameBoundary =>
    cases hop
    rcases s.frameBoundary_cases with h | h <;> exact .inl ((congrArg State.cfg h).trans rfl)
  | ackDisplay | observe => cases hop; exact .inl rfl

/-- Settles O22: by the operation performed (`State.perform_cfg`). -/
theorem onlyALoadChangesTheConfiguration : Obligations.OnlyALoadChangesTheConfiguration := by
  intro s t hstep
  obtain ⟨op, rest, n, hop, hfrom⟩ := step_performs hstep
  rcases State.perform_cfg hop with hkept | ⟨image, rfl, hfit⟩
  · exact .inl hkept
  · exact .inr ⟨image, rest, hfrom.schedule_of_load, hfit⟩

/-! ### The invariant -/

/-- Settles O19: memory lists nothing, and the engine's part is that of the reset values. -/
theorem resetMeetsTheInvariant : Obligations.ResetMeetsTheInvariant :=
  ⟨⟨rfl, rfl, rfl⟩, fun _ => ⟨Nat.zero_le _, fun _ ha => absurd ha List.not_mem_nil, by decide, fun _ => rfl⟩⟩

/-- A fatal error keeps the invariant, which says nothing of a halted engine but what holds of its data. -/
theorem State.DataInv.raise_inv (h : s.DataInv) (w : Word) (e : Raise) : (s.raise w e).Inv :=
  ⟨h, fun hrun => nomatch hrun⟩

theorem State.DataInv.raiseFetch_inv (h : s.DataInv) (e : Raise) : (s.raiseFetch e).Inv :=
  ⟨h, fun hrun => nomatch hrun⟩

/-- What holds of the engine when an instruction begins: `pc` is 2 past an address the fetch accepted. -/
structure State.ExecInv (s : State) : Prop where
  depth  : s.stack.length ≤ s.cfg.stackDepth
  stack  : ∀ a ∈ s.stack, a.toNat ≤ 0x1000
  pcLow  : 2 ≤ s.pc.toNat
  pcHigh : s.pc.toNat ≤ 0x1000
  vblank : s.cfg.quirks.dispWait = false → s.vblank = .free

/-- The stack stays within its depth: a push is made only when an entry is free. -/
theorem Keeps.depth_le (hk : Keeps s t) (h : s.stack.length ≤ s.cfg.stackDepth) : t.stack.length ≤ s.cfg.stackDepth := by
  rcases hk.stack with hs | hs | ⟨hs, hfree⟩
  · rwa [hs]
  · rw [hs, List.length_tail]
    omega
  · rw [hs, List.length_cons]
    omega

/-- The stack holds addresses an instruction can follow: the one pushed is `pc`. -/
theorem Keeps.stack_le (hk : Keeps s t) (h : ∀ a ∈ s.stack, a.toNat ≤ 0x1000) (hpc : s.pc.toNat ≤ 0x1000) :
    ∀ a ∈ t.stack, a.toNat ≤ 0x1000 := by
  rcases hk.stack with hs | hs | ⟨hs, _⟩
  · rwa [hs]
  · rw [hs]
    exact fun a ha => h a (List.mem_of_mem_tail ha)
  · rw [hs]
    exact List.forall_mem_cons.mpr ⟨hpc, h⟩

/-- `pc` stays within the targets of a jump with an offset, wherever the instruction takes it. -/
theorem Keeps.pc_le (hk : Keeps s t) (h : s.ExecInv) : t.pc.toNat ≤ 0x10FE := by
  have hlow := h.pcLow
  have hhigh := h.pcHigh
  rcases hk.pc with hp | hp | hp | hp | hp
  · rw [hp]
    omega
  · rw [hp]
    bv_omega
  · rw [hp]
    bv_omega
  · have := h.stack _ hp
    omega
  · exact hp

/-- The execution of an instruction leads from what holds when it begins to the invariant. -/
theorem exec_inv (h : exec i s = .next t) (hd : s.DataInv) (he : s.ExecInv) : t.Inv := by
  rcases exec_keeps h with ⟨e, rfl⟩ | hk
  · exact hd.raise_inv _ e
  · obtain ⟨hmem, hcfg, hsched⟩ := hd
    obtain ⟨hc, hs⟩ := exec_cfg_schedule h
    refine ⟨⟨?mem, ?cfg, ?sched⟩, fun _ => ⟨?depth, hk.stack_le he.stack he.pcHigh, hk.pc_le he, ?vblank⟩⟩
    case mem => rw [hc]; exact hk.mem hmem
    case cfg => rwa [hc]
    case sched => rwa [hs]
    case depth => rw [hc]; exact hk.depth_le he.depth
    case vblank =>
      rw [hc]
      exact fun hq => (hk.vblank hq).trans (he.vblank hq)

theorem State.engineStep_inv {key : Option Reg} {rnd : Byte} (hinv : s.Inv) (h : s.engineStep key rnd = .next t) : t.Inv := by
  obtain ⟨hd, he⟩ := hinv
  rcases s.engineStep_cases h with ⟨_, rfl⟩ | ⟨_, _, rfl⟩ | ⟨hrun, hpc, i, _, hexec⟩ | ⟨_, _, e, _, rfl⟩
  · exact ⟨hd, he⟩
  · exact State.DataInv.raiseFetch_inv hd _
  · obtain ⟨hdepth, hstack, _, hv⟩ := he hrun.1
    have hpc' : (s.pc + 2#16).toNat = s.pc.toNat + 2 := by
      unfold memSize at hpc
      bv_omega
    refine exec_inv hexec hd ⟨hdepth, hstack, ?low, ?high, hv⟩
    case low => exact hpc' ▸ Nat.le_add_left 2 _
    case high => exact hpc' ▸ hpc
  · refine State.DataInv.raise_inv ?_ _ _
    exact hd

/-- A load of an image that fits leads to the invariant from any state, if its configuration is allowed. -/
theorem State.load_inv {c : Config} {image : List Byte} (hinv : s.Inv) (hc : c.wf = true) : (s.load c image).Inv := by
  by_cases hfit : image.length ≤ 3584
  · rw [s.load_of_fits c hfit]
    have hmem := (s.freshSession c).placeBytes_wf 0x200 image rfl (by unfold memSize; omega)
    obtain ⟨⟨_, _, hsched⟩, _⟩ := hinv
    refine ⟨⟨?mem, ?cfg, ?sched⟩, fun _ => ?engine⟩
    case mem => rwa [State.placeBytes_cfg]
    case cfg => rwa [State.placeBytes_cfg]
    case sched => rwa [State.placeBytes_schedule]
    case engine => simp [State.EngineInv, State.freshSession, loadAddr]
  · rwa [s.load_of_overlong c hfit]

/-- Every operation keeps the invariant, if a configuration it brings is allowed. -/
theorem State.perform_inv (hinv : s.Inv) (hwf : op.wf = true) (hop : s.perform op = .next t) : t.Inv := by
  cases op with
  | load c image => cases hop; exact State.load_inv hinv hwf
  | step key rnd => exact State.engineStep_inv hinv hop
  | deliverKey k =>
    cases hop
    rcases s.deliverKey_cases k with h | h <;> rw [h] <;> exact hinv
  | frameBoundary =>
    cases hop
    rcases s.frameBoundary_cases with h | h
    · rwa [h]
    · rw [h]
      obtain ⟨hd, he⟩ := hinv
      refine ⟨hd, fun hrun => ?_⟩
      obtain ⟨hdepth, hstack, hpc, hv⟩ := he hrun
      refine ⟨hdepth, hstack, hpc, fun hq => ?_⟩
      show vblankRelease s.cfg s.vblank = .free
      rw [hv hq]
      rfl
  | ackDisplay | observe => cases hop; exact hinv

/-- Settles O20: taking the operation keeps the invariant, the configuration an issued load brings is allowed, and every operation keeps
the invariant (`State.perform_inv`). -/
theorem everyStepKeepsTheInvariant : Obligations.EveryStepKeepsTheInvariant := by
  intro s t ⟨⟨hmem, hcfg, hsched⟩, he⟩ hstep
  obtain ⟨op, rest, n, hop, hfrom⟩ := step_performs hstep
  obtain ⟨hwf, hrest⟩ := hfrom.wf hsched
  exact State.perform_inv (s := { s with schedule := rest, draws := n }) ⟨⟨hmem, hcfg, hrest⟩, he⟩ hwf hop

/-! ### The canonical form of memory -/

/-- An address below every listed one reads as its unlisted contents. -/
theorem Memory.read_of_lt {d : Nat → Byte} {m : List Host.Cell} {a : Nat} (h : ∀ c ∈ m, a < c.1) : Memory.read d m a = d a := by
  induction m with
  | nil => rfl
  | cons c m ih =>
    obtain ⟨hc, hm⟩ := List.forall_mem_cons.mp h
    rw [Memory.read, if_neg (Nat.ne_of_lt hc), ih hm]

/-- In two canonical lists that read the same, the first listed address of one is not below that of the other: there the other would
read as unlisted. -/
theorem Memory.head_le_of_read_eq {d : Nat → Byte} {k k' : Nat} {b b' : Byte} {m m' : List Host.Cell}
    (h : Memory.wf d ((k, b) :: m) = true) (h' : Memory.wf d ((k', b') :: m') = true)
    (heq : ∀ a, Memory.read d ((k, b) :: m) a = Memory.read d ((k', b') :: m') a) : k' ≤ k := by
  obtain ⟨_, hb, _, _⟩ := (Memory.wf_cons k b m).mp h
  obtain ⟨_, _, hlt, _⟩ := (Memory.wf_cons k' b' m').mp h'
  by_contra hk
  have hbelow : ∀ c ∈ (k', b') :: m', k < c.1 :=
    List.forall_mem_cons.mpr ⟨Nat.lt_of_not_le hk, fun c hc => (Nat.lt_of_not_le hk).trans (hlt c hc)⟩
  have hread := heq k
  rw [Memory.read_of_lt hbelow, Memory.read, if_pos rfl] at hread
  exact hb hread

/-- A canonical list with a cell does not read as one with none. -/
theorem Memory.read_cons_ne_nil {d : Nat → Byte} {k : Nat} {b : Byte} {m : List Host.Cell} (h : Memory.wf d ((k, b) :: m) = true) :
    Memory.read d ((k, b) :: m) k ≠ Memory.read d [] k := by
  obtain ⟨_, hb, _, _⟩ := (Memory.wf_cons k b m).mp h
  have hself : Memory.read d ((k, b) :: m) k = b := if_pos rfl
  rwa [hself]

/-- Settles O23, by induction on the lists: the first addresses are equal (`Memory.head_le_of_read_eq`), there the bytes are, and beyond
them the tails read the same. -/
theorem canonicalMemoriesThatReadTheSameAreEqual : Obligations.CanonicalMemoriesThatReadTheSameAreEqual := by
  intro d m
  induction m with
  | nil =>
    intro m' _ h' heq
    cases m' with
    | nil => rfl
    | cons c' m' => exact absurd (heq c'.1).symm (Memory.read_cons_ne_nil h')
  | cons c m ih =>
    intro m' h h' heq
    obtain ⟨k, b⟩ := c
    cases m' with
    | nil => exact absurd (heq k) (Memory.read_cons_ne_nil h)
    | cons c' m' =>
      obtain ⟨k', b'⟩ := c'
      obtain rfl : k = k' :=
        le_antisymm (Memory.head_le_of_read_eq h' h fun a => (heq a).symm) (Memory.head_le_of_read_eq h h' heq)
      obtain rfl : b = b' := by simpa [Memory.read] using heq k
      obtain ⟨_, _, hlt, hm⟩ := (Memory.wf_cons k b m).mp h
      obtain ⟨_, _, hlt', hm'⟩ := (Memory.wf_cons k b m').mp h'
      rw [ih m' hm hm' fun a => ?tails]
      case tails =>
        by_cases ha : a = k
        · rw [ha, Memory.read_of_lt hlt, Memory.read_of_lt hlt']
        · simpa [Memory.read, ha] using heq a

end Sys2Proof.Machine
end

section
/-! SUPPORT. Skips, jumps and the call (41_control_flow.md R160 to R169, 45_timers_keys.md R263, R264). -/

namespace Sys2Proof.Machine

variable (s : State)

/-! ### Skips -/

/-- What every skip has in common, whatever its condition `c`: `pc` becomes the address `a` the condition selects. -/
theorem gives_skipIf (c : Bool) {a : Word} (h : (if c then s.pc + 2#16 else s.pc) = a) :
    Gives (.next (s.skipIf c)) (fun t => t.pc = a ∧ SameBut (fun p => p = .pc) s t) := by
  refine ⟨_, rfl, ?_, SameBut.skipIf s c rfl⟩
  rw [State.skipIf_eq, State.setPc_pc, h]

/-- Settles O24: the skips differ in the condition alone. -/
theorem registerSkips : Obligations.RegisterSkips := by
  refine fun s x y nn => ⟨gives_skipIf s _ ?_, gives_skipIf s _ ?_, gives_skipIf s _ ?_, gives_skipIf s _ ?_⟩ <;> simp

/-- The key is compared in full: a key pressed is a number that the register holds (45_timers_keys.md R263, D17). -/
theorem State.keyPressed_iff (x : Reg) : s.keyPressed x = true ↔ ∃ k, s.key = some k ∧ k.val = (s.getV x).toNat := by
  unfold State.keyPressed
  cases s.key <;> simp

/-- Settles O25: SKP skips when the key is pressed, SKNP when it is not (`State.keyPressed_iff`). -/
theorem keySkips : Obligations.KeySkips := by
  refine fun s x => ⟨fun hkey => ?pressed, fun hkey => ?notPressed⟩
  case pressed =>
    have hp : s.keyPressed x = true := (s.keyPressed_iff x).mpr hkey
    exact ⟨gives_skipIf s _ (by rw [hp]; rfl), gives_skipIf s _ (by rw [hp]; rfl)⟩
  case notPressed =>
    have hp : s.keyPressed x = false := by
      rw [← Bool.not_eq_true, s.keyPressed_iff]
      exact fun ⟨k, hk, hv⟩ => hkey k hk hv
    exact ⟨gives_skipIf s _ (by rw [hp]; rfl), gives_skipIf s _ (by rw [hp]; rfl)⟩

/-! ### Jumps and the call -/

/-- The register BNNN adds is V0, or the one NNN's leading nibble names (41_control_flow.md R169). -/
theorem jumpReg_val (q : Quirks) (nnn : BitVec 12) : (jumpReg q nnn).val = if q.jumpVx then nnn.toNat / 256 else 0 := by
  have hlt := nnn.isLt
  unfold jumpReg
  split
  · show (nnn.extractLsb' 8 4).toNat = _
    rw [BitVec.extractLsb'_toNat, Nat.shiftRight_eq_div_pow]
    omega
  · rfl

/-- Settles O26: both targets are sums that fit 16 bits (`addrImm_toNat`, `State.jumpTarget_toNat`). -/
theorem jumpsSetThePc : Obligations.JumpsSetThePc := by
  refine fun s nnn => ⟨⟨_, rfl, addrImm_toNat nnn, SameBut.setPc s _ rfl⟩, ⟨_, rfl, fun r hr => ?target, SameBut.setPc s _ rfl⟩⟩
  case target =>
    obtain rfl : r = jumpReg s.cfg.quirks nnn := Fin.ext (hr.trans (jumpReg_val _ _).symm)
    exact s.jumpTarget_toNat nnn

theorem State.push_full {s : State} {a : Word} (h : s.stack.length = s.cfg.stackDepth) :
    s.push a = .error { kind := .stackOverflow, memAddr := none } := if_pos h

theorem exec_call_of_room {s : State} (nnn : BitVec 12) (h : s.stack.length ≠ s.cfg.stackDepth) :
    exec (.call nnn) s = .next (State.setPc { s with stack := s.pc :: s.stack } (addrImm nnn)) := by
  show execCall nnn s = _
  rw [execCall, s.push_ok.mpr ⟨h, rfl⟩]
  rfl

theorem exec_call_halts {s : State} (nnn : BitVec 12) (h : s.stack.length = s.cfg.stackDepth) :
    Halts (exec (.call nnn) s) (s.record (.call nnn) .stackOverflow none) := by
  show Halts (execCall nnn s) _
  rw [execCall, State.push_full h]
  exact s.conclude_error_halts (.call nnn) { kind := .stackOverflow, memAddr := none }

/-- Settles O27: by the two cases of the push. -/
theorem callPushesTheReturnAddress : Obligations.CallPushesTheReturnAddress := by
  refine fun s nnn => ⟨fun h => ⟨_, exec_call_of_room nnn h, rfl, addrImm_toNat nnn, ?frame⟩, exec_call_halts nnn⟩
  case frame => exact (SameBut.setStack s (s.pc :: s.stack) (.inr rfl)).trans (SameBut.setPc _ _ (.inl rfl))

end Sys2Proof.Machine
end

section
/-! SUPPORT. The instructions that write a register, with or without a flag, and their results as numbers (42_alu.md R180 to R191). -/

namespace Sys2Proof.Machine

variable (s : State)

/-! ### One register -/

/-- What every instruction that writes one register has in common. -/
theorem gives_setV (x : Reg) (b : Byte) :
    Gives (.next (s.setV x b)) (fun t => t.getV x = b ∧ SameBut (fun p => p = .reg x) s t) :=
  ⟨_, rfl, s.setV_getV_self x b, SameBut.setV s x b rfl⟩

/-- Settles O30: the four instructions differ in the byte alone. -/
theorem loadsWriteOneRegister : Obligations.LoadsWriteOneRegister :=
  fun s x y nn => ⟨gives_setV s x nn, gives_setV s x (s.getV y), gives_setV s x s.dt, gives_setV s x (s.rnd &&& nn)⟩

/-- Settles O31: the sum of two bytes is taken modulo 256. -/
theorem addImmediateWrapsWithoutFlag : Obligations.AddImmediateWrapsWithoutFlag := by
  intro s x nn
  obtain ⟨t, ht, hsum, hframe⟩ := gives_setV s x (s.getV x + nn)
  exact ⟨t, ht, by rw [hsum, BitVec.toNat_add], hframe⟩

/-! ### A register and the flag -/

/-- What every instruction that writes a result and then a flag has in common, the two given as numbers. -/
theorem gives_setWithFlag (x : Reg) {b f : Byte} {m k : Nat} (hb : b.toNat = m) (hf : f.toNat = k) :
    Gives (.next (s.setWithFlag x b f)) (fun t =>
      (x ≠ vf → (t.getV x).toNat = m) ∧ (t.getV vf).toNat = k ∧ SameBut (fun p => p = .reg x ∨ p = .reg vf) s t) := by
  refine ⟨_, rfl, fun hx => ?result, ?flag, SameBut.setWithFlag s x b f (.inl rfl) (.inr rfl)⟩
  case result => rw [s.setWithFlag_getV_result b f hx, hb]
  case flag => rw [s.setWithFlag_getV_flag, hf]

theorem byte_sub_toNat (a b : Byte) : (a - b).toNat = (a.toNat + 256 - b.toNat) % 256 := by
  have hb := b.isLt
  rw [BitVec.toNat_sub]
  omega

theorem noBorrowFlag_toNat (a b : Byte) : (noBorrowFlag a b).toNat = if b.toNat ≤ a.toNat then 1 else 0 := by
  simp [noBorrowFlag, flagByte_toNat]

/-- Settles O34: the two subtractions differ in the order of their operands. -/
theorem subtractionsWriteNoBorrow : Obligations.SubtractionsWriteNoBorrow :=
  fun s x y => ⟨gives_setWithFlag s x (byte_sub_toNat (s.getV x) (s.getV y)) (noBorrowFlag_toNat _ _),
    gives_setWithFlag s x (byte_sub_toNat (s.getV y) (s.getV x)) (noBorrowFlag_toNat _ _)⟩

theorem byte_shiftRight_one_toNat (v : Byte) : (v >>> 1).toNat = v.toNat / 2 := by
  rw [BitVec.toNat_ushiftRight, Nat.shiftRight_eq_div_pow, pow_one]

theorem byte_shiftLeft_one_toNat (v : Byte) : (v <<< 1).toNat = v.toNat * 2 % 256 := by
  rw [BitVec.toNat_shiftLeft, Nat.shiftLeft_eq, pow_one]

theorem shiftedOutRight_toNat (v : Byte) : (shiftedOutRight v).toNat = v.toNat % 2 := by
  rw [shiftedOutRight, BitVec.toNat_and]
  exact Nat.and_one_is_mod _

theorem shiftedOutLeft_toNat (v : Byte) : (shiftedOutLeft v).toNat = v.toNat / 128 := by
  have hlt := v.isLt
  rw [show shiftedOutLeft v = shiftedOutRight (v >>> 7) from rfl, shiftedOutRight_toNat, BitVec.toNat_ushiftRight,
    Nat.shiftRight_eq_div_pow]
  omega

/-- Settles O35: result and flag are both taken from the value shifted, which the quirk selects. -/
theorem shiftsWriteTheBitShiftedOut : Obligations.ShiftsWriteTheBitShiftedOut := by
  rintro s x y v rfl
  exact ⟨gives_setWithFlag s x (byte_shiftRight_one_toNat _) (shiftedOutRight_toNat _),
    gives_setWithFlag s x (byte_shiftLeft_one_toNat _) (shiftedOutLeft_toNat _)⟩

end Sys2Proof.Machine
end

section
/-! SUPPORT. The index register's own instructions (43_index_memory.md R210 to R213), the timers and the key wait
(45_timers_keys.md R261, R262, R265). -/

namespace Sys2Proof.Machine

variable {s : State}

/-! ### The index register -/

theorem glyphAddr_toNat (b : Byte) : (glyphAddr b).toNat = 5 * (b.toNat % 16) := by
  have hnibble : (b &&& 0x0F#8).toNat = b.toNat % 16 := by
    rw [BitVec.toNat_and]
    exact Nat.and_two_pow_sub_one_eq_mod _ 4
  rw [glyphAddr, BitVec.toNat_mul, BitVec.toNat_setWidth, hnibble]
  show 5 * (b.toNat % 16 % 2 ^ 16) % 2 ^ 16 = _
  omega

/-- Settles O36: both write the index register alone. -/
theorem indexLoads : Obligations.IndexLoads :=
  fun s nnn x => ⟨⟨_, rfl, addrImm_toNat nnn, SameBut.setIdx s _ rfl⟩,
    ⟨_, rfl, glyphAddr_toNat (s.getV x), SameBut.setIdx s _ rfl⟩⟩

/-- An index addition of a sum that does not fit, when it wraps. -/
theorem State.indexAdd_wraps {n : Nat} (h : 0xFFFF < s.idx.toNat + n) (hw : s.cfg.iOverflow = .wrap) :
    s.indexAdd n = .ok (s.setIdx (BitVec.ofNat 16 (s.idx.toNat + n))) := by
  rw [State.indexAdd, if_neg (Nat.not_le_of_lt h), hw]

/-- An index addition of a sum that does not fit, when it is a fatal error. -/
theorem State.indexAdd_faults {n : Nat} (h : 0xFFFF < s.idx.toNat + n) (hf : s.cfg.iOverflow = .fault) :
    s.indexAdd n = .error { kind := .indexOverflow, memAddr := none } := by
  rw [State.indexAdd, if_neg (Nat.not_le_of_lt h), hf]

/-- An addition to the index register that does not raise leaves the sum modulo 0x10000 in it. -/
theorem gives_addI {x : Reg} {m : Nat}
    (h : s.indexAdd (s.getV x).toNat = .ok (s.setIdx (BitVec.ofNat 16 (s.idx.toNat + (s.getV x).toNat))))
    (hm : (s.idx.toNat + (s.getV x).toNat) % 2 ^ 16 = m) :
    Gives (exec (.addI x) s) (fun t => t.idx.toNat = m ∧ SameBut (fun p => p = .idx) s t) := by
  refine ⟨_, ?_, ?_, SameBut.setIdx s (BitVec.ofNat 16 (s.idx.toNat + (s.getV x).toNat)) rfl⟩
  · show execAddI x s = _
    rw [execAddI, h, State.conclude_ok]
  · rw [State.setIdx_idx, BitVec.toNat_ofNat, hm]

theorem exec_addI_halts (x : Reg) (h : 0xFFFF < s.idx.toNat + (s.getV x).toNat) (hf : s.cfg.iOverflow = .fault) :
    Halts (exec (.addI x) s) (s.record (.addI x) .indexOverflow none) := by
  show Halts (execAddI x s) _
  rw [execAddI, State.indexAdd_faults h hf]
  exact s.conclude_error_halts (.addI x) { kind := .indexOverflow, memAddr := none }

/-- Settles O37: by the three cases of the index addition. -/
theorem addToIndex : Obligations.AddToIndex := by
  intro s x
  have hi := s.idx.isLt
  have hv := (s.getV x).isLt
  refine ⟨fun h => gives_addI (s.indexAdd_fits h) ?fits, fun h hw => gives_addI (State.indexAdd_wraps h hw) ?wraps, exec_addI_halts x⟩
  case fits => omega
  case wraps => omega

/-! ### The timers -/

/-- Settles O50: each writes its timer alone. -/
theorem timerLoads : Obligations.TimerLoads :=
  fun s x => ⟨⟨_, rfl, rfl, SameBut.setDt s (s.getV x) rfl⟩, ⟨_, rfl, rfl, SameBut.setSt s (s.getV x) rfl⟩⟩

/-! ### The key wait -/

theorem exec_ldVxK (x : Reg) (s : State) : exec (.ldVxK x) s = .next { s with blocked := true, waitReg := x } := rfl

/-- Settles O51: the wait is all it writes, and it does not read the step's key. -/
theorem keyWaitBlocks : Obligations.KeyWaitBlocks := fun s x => ⟨_, exec_ldVxK x s, rfl, rfl, SameBut.setKeyWait s true x rfl⟩

/-- Settles O52: the engine is blocked, so that a step does nothing and a key delivered goes to V[X]. -/
theorem keyWaitProtocol : Obligations.KeyWaitProtocol := by
  intro s x k hhalt
  refine ⟨_, exec_ldVxK x s, fun key rnd => State.engineStep_blocked _ rfl, _,
    State.perform_deliverKey_of_blocked k hhalt rfl, ⟨hhalt, rfl⟩, ?key, rfl, fun r hr => ?others⟩
  case key => exact (congrArg BitVec.toNat (s.setV_getV_self x _)).trans (keyByte_toNat k)
  case others => exact s.setV_getV_other _ hr

end Sys2Proof.Machine
end

section
/-! SUPPORT. The bulk transfers: how a run of byte reads ends, the index register after a transfer, and what a store leaves for a load or a
fetch (43_index_memory.md R215, R216; 20_memory.md R72; 60_exceptions.md R303). -/

namespace Sys2Proof.Machine

variable {s : State}

/-! ### Runs of byte reads -/

/-- Reads that all stay within memory give the bytes there. -/
theorem State.readBytes_inMemory (s : State) {a n : Nat} (h : a + n ≤ memSize) :
    s.readBytes a n = .ok ((List.range n).map fun k => s.readByte (a + k)) := by
  rw [State.readBytes_eq, if_pos (.inr h)]

/-- Reads that leave memory raise at their first address out of range (60_exceptions.md R303). -/
theorem State.readBytes_firstOutOfRange (s : State) {a r n : Nat} (hr : r < n) (h : FirstOutOfRange a r) :
    s.readBytes a n = .error (outOfRange (a + r)) := by
  have hpast : memSize < a + n := Nat.lt_of_le_of_lt h.1 (Nat.add_lt_add_left hr a)
  rw [State.readBytes_eq, if_neg (not_or.mpr ⟨Nat.ne_zero_of_lt hr, Nat.not_le_of_gt hpast⟩), h.max_memSize]

/-! ### The index register after a transfer -/

/-- The index register after a transfer of V0 to VX that did not raise. -/
def State.idxAfter (s : State) (x : Reg) : Word :=
  if s.cfg.quirks.memInc then BitVec.ofNat 16 (s.idx.toNat + runLength x) else s.idx

theorem State.memIncrement_inMemory (x : Reg) (h : s.idx.toNat + x.val < 4096) :
    s.memIncrement x = .ok (s.setIdx (s.idxAfter x)) := s.memIncrement_fits x h

theorem State.idxAfter_toNat {x : Reg} (h : s.idx.toNat + x.val < 4096) :
    (s.idxAfter x).toNat = if s.cfg.quirks.memInc then s.idx.toNat + x.val + 1 else s.idx.toNat := by
  unfold State.idxAfter runLength
  split
  · rw [BitVec.toNat_ofNat]
    omega
  · rfl

theorem State.placeBytes_idxAfter (s : State) (a : Nat) (bs : List Byte) (x : Reg) :
    (s.placeBytes a bs).idxAfter x = s.idxAfter x := by
  simp [State.idxAfter]

/-! ### The store -/

theorem exec_storeRegs_of_inMemory {x : Reg} (h : s.idx.toNat + x.val < 4096) :
    exec (.storeRegs x) s = .next ((s.placeBytes s.idx.toNat (s.regRun x)).setIdx (s.idxAfter x)) := by
  show execStoreRegs x s = _
  have hfit : s.idx.toNat + (s.regRun x).length ≤ memSize := by rwa [State.regRun_length]
  have hinc := State.memIncrement_inMemory (s := s.placeBytes s.idx.toNat (s.regRun x)) x (by rwa [State.placeBytes_idx])
  rw [State.placeBytes_idxAfter] at hinc
  rw [execStoreRegs, s.writeBytes_inMemory hfit]
  exact congrArg (s.conclude _) hinc

/-- After a store, the cell `r` past the start of the transfer holds V[r]. -/
theorem State.placeBytes_regRun_readByte (s : State) (a : Nat) {x r : Reg} (hr : r.val ≤ x.val) :
    (s.placeBytes a (s.regRun x)).readByte (a + r.val) = s.getV r := by
  have hlen : r.val < (s.regRun x).length := by
    rw [State.regRun_length]
    exact Nat.lt_succ_of_le hr
  rw [State.placeBytes_readByte_inside _ _ _ _ hlen, State.regRun_get _ _ _ hlen r.isLt]

/-- Settles O39: the run of registers is placed at `I`, and then `I` is written. -/
theorem bulkStore : Obligations.BulkStore := by
  intro s x h
  refine ⟨_, exec_storeRegs_of_inMemory h, fun r => s.placeBytes_regRun_readByte s.idx.toNat, State.idxAfter_toNat h, ?frame⟩
  case frame =>
    refine SameBut.trans (SameBut.placeBytes s _ _ fun k hk => .inr ⟨k, ?_, rfl⟩) (SameBut.setIdx _ _ (.inl rfl))
    rw [State.regRun_length] at hk
    exact Nat.le_of_lt_succ hk

/-! ### The load -/

/-- The state with V0 to VX loaded from `I` on. -/
def State.loadedRun (s : State) (x : Reg) : State :=
  { s with v := loadRegsFrom 0 ((List.range (runLength x)).map fun k => s.readByte (s.idx.toNat + k)) s.v }

theorem State.loadedRun_getV (s : State) {x r : Reg} (hr : r.val ≤ x.val) :
    (s.loadedRun x).getV r = s.readByte (s.idx.toNat + r.val) := by
  show (loadRegsFrom 0 _ s.v)[r.val] = _
  have hlt : r.val < runLength x := Nat.lt_succ_of_le hr
  rw [loadRegsFrom_get _ _ _ _ r.isLt, dif_pos (by simpa using hlt)]
  simp

theorem exec_loadRegs_of_inMemory {x : Reg} (h : s.idx.toNat + x.val < 4096) :
    exec (.loadRegs x) s = .next ((s.loadedRun x).setIdx (s.idxAfter x)) := by
  show execLoadRegs x s = _
  have hinc : (s.loadedRun x).memIncrement x = .ok ((s.loadedRun x).setIdx (s.idxAfter x)) := State.memIncrement_inMemory x h
  have hfit : s.idx.toNat + runLength x ≤ memSize := h
  rw [execLoadRegs, s.readBytes_inMemory hfit]
  exact congrArg (s.conclude _) hinc

/-- Settles O40: the bytes from `I` on go into the run of registers, and then `I` is written. -/
theorem bulkLoad : Obligations.BulkLoad := by
  intro s x h
  refine ⟨_, exec_loadRegs_of_inMemory h, fun r => s.loadedRun_getV, State.idxAfter_toNat h, ?frame⟩
  case frame =>
    refine SameBut.trans (SameBut.loadRegsFrom s _ fun r hr => .inr ⟨r, ?_, rfl⟩) (SameBut.setIdx _ _ (.inl rfl))
    rw [List.length_map, List.length_range] at hr
    exact Nat.le_of_lt_succ hr

/-! ### Out of range -/

theorem exec_storeRegs_halts {x : Reg} {r : Nat} (hr : r ≤ x.val) (h : FirstOutOfRange s.idx.toNat r) :
    Halts (exec (.storeRegs x) s) (s.record (.storeRegs x) .addressOutOfRange (some (s.idx.toNat + r))) := by
  show Halts (execStoreRegs x s) _
  have hlen : r < (s.regRun x).length := by
    rw [State.regRun_length]
    exact Nat.lt_succ_of_le hr
  rw [execStoreRegs, s.writeBytes_firstOutOfRange hlen h]
  exact s.conclude_error_halts (.storeRegs x) (outOfRange (s.idx.toNat + r))

theorem exec_loadRegs_halts {x : Reg} {r : Nat} (hr : r ≤ x.val) (h : FirstOutOfRange s.idx.toNat r) :
    Halts (exec (.loadRegs x) s) (s.record (.loadRegs x) .addressOutOfRange (some (s.idx.toNat + r))) := by
  show Halts (execLoadRegs x s) _
  have hlt : r < runLength x := Nat.lt_succ_of_le hr
  rw [execLoadRegs, s.readBytes_firstOutOfRange hlt h]
  exact s.conclude_error_halts (.loadRegs x) (outOfRange (s.idx.toNat + r))

/-- Settles O41: the runs of writes and of reads both raise at their first address out of range. -/
theorem bulkTransferOutOfRangeHalts : Obligations.BulkTransferOutOfRangeHalts :=
  fun _ _ _ hr h => ⟨exec_storeRegs_halts hr h, exec_loadRegs_halts hr h⟩

/-! ### A store, then a load or a fetch -/

/-- Settles O42: the load reads the cells the store wrote (`bulkLoad` after `bulkStore`). -/
theorem bulkLoadUndoesBulkStore : Obligations.BulkLoadUndoesBulkStore := by
  intro s x v h
  obtain ⟨t, ht, hcells, _, _⟩ := bulkStore s x h
  obtain ⟨u, hu, hregs, _, _⟩ := bulkLoad { t with idx := s.idx, v := v } x h
  exact ⟨t, ht, u, hu, fun r hr => (hregs r hr).trans (hcells r hr)⟩

/-- Settles O43: the fetch reads the two cells the store wrote last (`bulkStore`), which are within memory. -/
theorem storedBytesAreFetched : Obligations.StoredBytesAreFetched := by
  intro s x r r' h hr' hx
  obtain ⟨t, ht, hcells, _, _⟩ := bulkStore s x h
  have hpc : (BitVec.ofNat 16 (s.idx.toNat + r.val)).toNat = s.idx.toNat + r.val := by
    rw [BitVec.toNat_ofNat]
    omega
  have hhigh : t.readByte (s.idx.toNat + r.val) = s.getV r := hcells r (by omega)
  have hlow : t.readByte (s.idx.toNat + r.val + 1) = s.getV r' := by rw [Nat.add_assoc, ← hr', hcells r' hx]
  have hread : ∀ a, State.readByte { t with pc := BitVec.ofNat 16 (s.idx.toNat + r.val) } a = t.readByte a := fun _ => rfl
  refine ⟨t, ht, ?bytes, ?word⟩
  case bytes =>
    have hfit : s.idx.toNat + r.val + 2 ≤ memSize := by unfold memSize; omega
    simp only [State.fetchBytes_eq, hpc, if_pos hfit, hread, hhigh, hlow]
  case word => simp only [State.nextWord, hpc, hread, hhigh, hlow]

end Sys2Proof.Machine
end

section
/-! SUPPORT. What DRW does by the cases of its row count and of the display gate, and what two draws in a row do
(44_display.md R231 to R237). -/

namespace Sys2Proof.Machine

variable {s t : State} {x y : Reg} {n : BitVec 4}

/-! ### The clear -/

/-- Settles O44: the clear grid and `changed` are all it writes. -/
theorem clearDisplay : Obligations.ClearDisplay := by
  refine fun s => ⟨_, rfl, clearGrid_pixel, rfl, SameBut.setDisplay s (fun hc => absurd (.inl rfl) hc) fun px py hp => ?_⟩
  exact absurd (.inr ⟨px, py, rfl⟩) hp

/-! ### The display gate -/

theorem State.not_drawable_iff : ¬s.drawable n ↔ n = 0#4 ∧ s.cfg.dxy0Policy = .refuse := by
  rw [State.drawable, not_or, not_not]
  cases s.cfg.dxy0Policy <;> simp

theorem State.not_gateOpen_iff : ¬s.gateOpen ↔ s.cfg.quirks.dispWait = true ∧ s.vblank ≠ .free := Classical.not_imp

/-- The state in which a draw that proceeds draws: under `disp_wait` the draw slot is taken (44_display.md R234). -/
def State.takeSlot (s : State) : State :=
  { s with vblank := if s.cfg.quirks.dispWait then .waitingForDraw else s.vblank }

/-- A draw that is given a meaning and that the gate lets proceed. -/
theorem exec_drw_of_open (x y : Reg) (hd : s.drawable n) (hg : s.gateOpen) :
    exec (.drw x y n) s = s.conclude (encode (.drw x y n)) (s.takeSlot.draw x y n) := by
  have hn : ¬(n = 0#4 ∧ s.cfg.dxy0Policy = .refuse) := fun h => State.not_drawable_iff.mpr h hd
  show execDrw x y n s = _
  rw [execDrw, if_neg hn, State.takeSlot]
  cases hw : s.cfg.quirks.dispWait with
  | true => rw [hg hw]; rfl
  | false => rfl

/-- A draw that is given a meaning and that the gate rejects: the slot is taken, or was asked for already. -/
theorem exec_drw_of_closed (x y : Reg) (hd : s.drawable n) (hg : ¬s.gateOpen) :
    exec (.drw x y n) s = .next (s.rejectDraw .waitingForInterrupt) := by
  have hn : ¬(n = 0#4 ∧ s.cfg.dxy0Policy = .refuse) := fun h => State.not_drawable_iff.mpr h hd
  obtain ⟨hw, hv⟩ := State.not_gateOpen_iff.mp hg
  show execDrw x y n s = _
  rw [execDrw, if_neg hn, if_pos hw]
  cases hvb : s.vblank with
  | free => exact absurd hvb hv
  | waitingForDraw | waitingForInterrupt => rfl

/-- Settles O46: the rejection writes `pc` and `vblank` (`exec_drw_of_closed`). -/
theorem rejectedDrawRollsBack : Obligations.RejectedDrawRollsBack := by
  intro s x y n hd hg
  refine ⟨_, exec_drw_of_closed x y hd hg, rfl, rfl, ?frame⟩
  case frame =>
    exact SameBut.trans (SameBut.setVblank s .waitingForInterrupt (.inr rfl)) (SameBut.setPc _ (s.pc - 2#16) (.inl rfl))

/-! ### A draw that proceeds -/

theorem exec_drw_halts_of_not_drawable (x y : Reg) (h : ¬s.drawable n) :
    Halts (exec (.drw x y n) s) (s.record (.drw x y n) .unmodelled none) := by
  show Halts (execDrw x y n s) _
  rw [execDrw, if_pos (State.not_drawable_iff.mp h)]
  exact s.conclude_error_halts (.drw x y n) { kind := .unmodelled, memAddr := none }

theorem exec_drw_halts_of_row (x y : Reg) {r : Nat} (hd : s.drawable n) (hg : s.gateOpen) (hr : r < n.toNat)
    (h : FirstOutOfRange s.idx.toNat r) :
    Halts (exec (.drw x y n) s) (s.record (.drw x y n) .addressOutOfRange (some (s.idx.toNat + r))) := by
  have hrows : s.takeSlot.readBytes s.takeSlot.idx.toNat n.toNat = .error (outOfRange (s.idx.toNat + r)) :=
    s.takeSlot.readBytes_firstOutOfRange hr h
  rw [exec_drw_of_open x y hd hg, State.draw, hrows]
  exact s.conclude_error_halts (.drw x y n) (outOfRange (s.idx.toNat + r))

/-- Settles O47: the row count is looked at before the gate, and the rows are read before anything is drawn. -/
theorem drawHalts : Obligations.DrawHalts :=
  fun _ x y _ => ⟨exec_drw_halts_of_not_drawable x y, fun _ => exec_drw_halts_of_row x y⟩

theorem State.spriteInMemory.fits {m : Nat} (h : s.spriteInMemory m) : m = 0 ∨ s.idx.toNat + m ≤ memSize := by
  cases m with
  | zero => exact .inl rfl
  | succ r => exact .inr (h r r.lt_succ_self)

theorem exec_drw_of_inMemory (x y : Reg) (hd : s.drawable n) (hg : s.gateOpen) (hm : s.spriteInMemory n.toNat) :
    exec (.drw x y n) s = .next (s.takeSlot.drawRows x y (s.spriteRows n.toNat)) := by
  have hfits : n.toNat = 0 ∨ s.takeSlot.idx.toNat + n.toNat ≤ memSize := hm.fits
  rw [exec_drw_of_open x y hd hg, State.draw_eq, if_pos hfits]
  rfl

/-- What drawing the sprite at `I` does to the grid once the slot is taken, which the sprite's pixels do not depend on. -/
theorem State.takeSlot_blit_covers (s : State) (x y : Reg) (n : BitVec 4) :
    BlitSpec (fun px py => s.covers x y n.toNat px py) { grid := s.grid, collided := false, changed := s.changed }
      (s.takeSlot.blit x y (s.spriteRows n.toNat)) :=
  s.takeSlot.blit_covers x y n

theorem State.drawRows_flag (s : State) (x y : Reg) (rows : List Byte) :
    (s.drawRows x y rows).getV vf = collisionFlag (s.blit x y rows).collided := State.setV_getV_self _ _ _

/-- Settles O45: the sprite is drawn as `BlitSpec` says of the pixels it covers, and its collision is the flag, written last. -/
theorem drawXorsTheSprite : Obligations.DrawXorsTheSprite := by
  intro s x y n hd hg hm
  obtain ⟨hit, miss, collided, changed⟩ := s.takeSlot_blit_covers x y n
  have hcollided : (s.takeSlot.blit x y (s.spriteRows n.toNat)).collided = true ↔
      ∃ px py, s.covers x y n.toNat px py ∧ s.grid.pixel px py = true := by
    simpa using collided
  have huncovered (h : ∀ px py, ¬s.covers x y n.toNat px py) :
      (s.takeSlot.blit x y (s.spriteRows n.toNat)).changed = s.changed := by
    have hnone : ¬∃ px py, s.covers x y n.toNat px py := fun ⟨px, py, hc⟩ => h px py hc
    simpa [hnone] using changed
  refine ⟨_, exec_drw_of_inMemory x y hd hg hm, hit, fun hset => ?set, fun hclear => ?clear, fun hcov => changed.mpr (.inr hcov),
    huncovered, rfl, ?frame⟩
  case set =>
    rw [State.drawRows_flag, hcollided.mpr hset]
    rfl
  case clear =>
    have hno : ¬(s.takeSlot.blit x y (s.spriteRows n.toNat)).collided = true := by
      rw [hcollided]
      rintro ⟨px, py, hc, hp⟩
      simp [hclear px py hc] at hp
    rw [State.drawRows_flag, Bool.eq_false_of_not_eq_true hno]
    rfl
  case frame =>
    refine ((SameBut.setVblank s s.takeSlot.vblank ?_).trans
      (SameBut.setDisplay _ (fun hc => ?_) fun px py hp => miss px py fun hc => ?_)).trans (SameBut.setV _ vf _ (.inl rfl))
    · exact .inr (.inr (.inl rfl))
    · exact absurd (.inr (.inl rfl)) hc
    · exact hp (.inr (.inr (.inr ⟨px, py, hc, rfl⟩)))

/-! ### Two draws -/

/-- The pixels a sprite covers depend on its bytes, the index register, the coordinate registers and the configuration alone. -/
theorem SameBut.covers_iff {P : Piece → Prop} (h : SameBut P s t) (hidx : ¬P .idx) (hcell : ∀ a, ¬P (.cell a)) (hx : ¬P (.reg x))
    (hy : ¬P (.reg y)) (m : Nat) (px : Fin 64) (py : Fin 32) : t.covers x y m px py ↔ s.covers x y m px py := by
  simp only [State.covers, h.idx hidx, fun a => h.cell a (hcell a), h.reg x hx, h.reg y hy, h.cfg]

/-- Settles O48: both draws cover the same pixels (`SameBut.covers_iff`), so that each is inverted twice (`drawXorsTheSprite`). -/
theorem drawTwiceRestoresTheGrid : Obligations.DrawTwiceRestoresTheGrid := by
  intro s x y n hd hw hm hx hy
  have hg : ∀ {s' : State}, s'.cfg = s.cfg → s'.gateOpen := fun hc hw' => by rw [hc, hw] at hw'; cases hw'
  obtain ⟨t, ht, hit, _, _, _, _, _, hframe⟩ := drawXorsTheSprite s x y n hd (hg rfl) hm
  have hcov := hframe.covers_iff (by simp) (by simp) (by simpa using hx) (by simpa using hy) n.toNat
  have hidx : t.idx = s.idx := hframe.idx (by simp)
  have hd' : t.drawable n := by rwa [State.drawable, hframe.cfg]
  have hm' : t.spriteInMemory n.toNat := by rwa [State.spriteInMemory, hidx]
  obtain ⟨u, hu, hit', hset, hclear, _, _, _, hframe'⟩ := drawXorsTheSprite t x y n hd' (hg hframe.cfg) hm'
  refine ⟨t, ht, u, hu, fun px py => ?pixel, ?one, ?zero⟩
  case pixel =>
    by_cases hc : s.covers x y n.toNat px py
    · rw [hit' px py ((hcov px py).mpr hc), hit px py hc, Bool.not_not]
    · rw [hframe'.pixel px py (by simpa [hcov] using hc), hframe.pixel px py (by simpa using hc)]
  case one =>
    rintro ⟨px, py, hc, hp⟩
    exact hset ⟨px, py, (hcov px py).mpr hc, by rw [hit px py hc, hp]; rfl⟩
  case zero =>
    intro hall
    refine hclear fun px py hc => ?_
    have hc' := (hcov px py).mp hc
    rw [hit px py hc', hall px py hc']
    rfl

/-- Settles O49: the first draw takes the slot (`drawXorsTheSprite`), so that the gate rejects the second (`rejectedDrawRollsBack`), which
leaves `vblank` as the frame boundary frees it. -/
theorem oneDrawPerFrame : Obligations.OneDrawPerFrame := by
  intro s x y x' y' n n' hhalt hw hv hd hd' hm
  obtain ⟨t, ht, _, _, _, _, _, hvt, hframe⟩ := drawXorsTheSprite s x y n hd (fun _ => hv) hm
  rw [if_pos hw] at hvt
  have hclosed : ¬State.gateOpen { t with pc := t.pc + 2#16 } :=
    State.not_gateOpen_iff.mpr ⟨by rw [hframe.cfg, hw], by rw [hvt]; decide⟩
  have hdraw : State.drawable { t with pc := t.pc + 2#16 } n' := by
    rw [State.drawable, hframe.cfg]
    exact hd'
  obtain ⟨u, hu, hpc, hvu, hframe'⟩ := rejectedDrawRollsBack _ x' y' n' hdraw hclosed
  have hrun : u.halt = none := (hframe'.halt (by simp)).trans ((hframe.halt (by simp)).trans hhalt)
  obtain ⟨w, hbound, hvw, hframe''⟩ := frameBoundaryReleasesTheDisplayWait u hrun
  refine ⟨t, ht, hframe.pc (by simp), u, hu, ?back, fun px py => hframe'.pixel px py (by simp), fun r => hframe'.reg r (by simp),
    w, hbound, ?free, hframe''.pc (by simp)⟩
  case back => rw [hpc, BitVec.add_sub_cancel]
  case free => rw [hvw, hvu, if_neg (by simp)]

end Sys2Proof.Machine
end
